-- ==== Sys2Proof/Word.lean ====
section
/-! DEFINITION. The value types of the ports (spec/10_state.md R106). -/

namespace Sys2Proof

/-- A Bit, one of two values, with 1 = `true` and 0 = `false` (spec/00_scope.md R11). -/
abbrev Bit := Bool

/-- Bits as a word spells them, leftmost (most significant) first (spec/30_encoding.md R310). -/
abbrev Bits := List Bit

/-- A Nibble: exactly four Bits, `n0` the most significant and `n3` the least (spec/00_scope.md R12).
`⟨n0, n1, n2, n3⟩` is the document's list form. In the `x[k]` notation `n0` is `x[3]` and `n3` is `x[0]` (R13). -/
structure Nibble where
  n0 : Bit
  n1 : Bit
  n2 : Bit
  n3 : Bit
deriving DecidableEq, Repr

end Sys2Proof
end

