-- ==== Sys2Proof/Config.lean ====
section
/-! DEFINITION. The fixed values that play the role of parameters (spec/00_scope.md R9, R10). No point is left
open, so there is no free value here. -/

namespace Sys2Proof.Config

/-- The datapath width N (R9). -/
def nibbleWidth : Nat := 4

/-- The least value the interpreter gives (R10; spec/44_interpret.md R801). -/
def interpreterLow : Int := -15

/-- The greatest value the interpreter gives (R10; spec/44_interpret.md R801). -/
def interpreterHigh : Int := 15

end Sys2Proof.Config
end

