-- ==== Sys2Proof/Syntax.lean ====
section
/-! DEFINITION. What a caller can ask for: the thirteen operations with typed port values (`Instr`), the lines of
the line notation (`Line`), the software calls with untyped arguments (`EntryCall`), and the errors a software call
can end in (`BoundaryError`). -/

namespace Sys2Proof

/-- One evaluation of one entry point with a typed value on every input port: one constructor per row of
spec/opcode_table.json, with the ports of spec/10_state.md R109 in their order. -/
inductive Instr where
  | and (a b : Bit)
  | or (a b : Bit)
  | not (a : Bit)
  | xor (a b : Bit)
  | nand (a b : Bit)
  | ha (a b : Bit)
  | fa (a b cin : Bit)
  | add4 (a b : Nibble) (cin : Bit)
  | ones (x : Nibble)
  | twos (x : Nibble)
  | add (a b : Nibble)
  | sub (a b : Nibble)
  | toSigned (r : Nibble) (s c : Bit)
deriving DecidableEq, Repr

/-- The operations that have a dispatch code (spec/30_encoding.md R309). -/
inductive Fn where
  | and | or | not | xor | nand | ha | fa | add4 | ones | twos | add | sub | toSigned
deriving DecidableEq, Repr

/-- The formats of an invocation word (spec/30_encoding.md R310). -/
inductive Format where
  | g1 | g2 | g3 | n1 | n2c | n2 | i
deriving DecidableEq, Repr

/-- A line of the line notation: an operation, or one of the three pseudo forms (spec/30_encoding.md R315). -/
inductive Line where
  | core (i : Instr)
  | add4Default (a b : Nibble)
  | neg (x : Nibble)
  | addsub (a b : Nibble) (op : Bit)
deriving DecidableEq, Repr

/-- A software value where a Bit or a selector is expected. Every value that is not 0 or 1 is ill-typed there, and
integers stand for all of them (log entry 6). -/
abbrev Value := Int

/-- A software value where a Boolean is expected (spec/30_encoding.md R303; spec/92_eei_decisions.md D20). -/
inductive FlagArg where
  | bool (b : Bool)
  | nonBoolean (v : Value)
deriving DecidableEq, Repr

/-- A call of an entry point with untyped arguments (spec/30_encoding.md section 2, R314). A Nibble argument is a
finite sequence of values, index 0 first (R304). `cin` is `none` when the caller of `add4` gives none (R305). -/
inductive EntryCall where
  | and (a b : Value)
  | or (a b : Value)
  | not (a : Value)
  | xor (a b : Value)
  | nand (a b : Value)
  | ha (a b : Value)
  | fa (a b cin : Value)
  | add4 (a b : List Value) (cin : Option Value)
  | onesComplement (x : List Value)
  | twosComplement (x : List Value)
  | addSubtract (a b : List Value) (op : Value)
  | toSignedValue (r : List Value) (s : FlagArg) (c : Value)
deriving DecidableEq, Repr

/-- The argument names an error payload can hold (spec/60_exceptions.md R904). -/
inductive ArgName where
  | a | b | x | cin
deriving DecidableEq, Repr

/-- The three error kinds with their payloads (spec/60_exceptions.md R900, R904). An index is the document's, 0 for
the most significant element; it is `none` for `cin`. -/
inductive BoundaryError where
  | invalidLength (argument : ArgName) (length : Nat)
  | invalidBit (argument : ArgName) (index : Option (Fin 4))
  | invalidOperation (value : Value)
deriving DecidableEq, Repr

/-- What a caller can drive next: invocation words written one after another (spec/30_encoding.md R310), a software
call, a line of the line notation, or the assembled top-level block with typed values on its ports
(spec/10_state.md R110). -/
inductive Call where
  | words (bits : Bits)
  | entry (c : EntryCall)
  | line (l : Line)
  | topLevel (A B : Nibble) (OP : Bit)
deriving DecidableEq, Repr

end Sys2Proof
end

