-- ==== Sys2Proof/WellFormed.lean ====
section
/-! DEFINITION. The preconditions of a software call (spec/30_encoding.md R304 to R307; spec/70_reset_and_hazards.md
R1002), written without the boundary decoder so that the decoder can be held against them. An `Instr` needs no check:
its ports hold Bits and Nibbles by their types (spec/60_exceptions.md R906). -/

namespace Sys2Proof

/-- The value is a Bit. -/
def Value.isBit (v : Value) : Bool := v = 0 || v = 1

/-- The sequence is a Nibble: exactly four elements, each a Bit. -/
def Value.isNibble (vs : List Value) : Bool := vs.length = Config.nibbleWidth && vs.all Value.isBit

/-- The value is a Boolean. -/
def FlagArg.isBoolean : FlagArg → Bool
  | .bool _ => true
  | .nonBoolean _ => false

/-- Every argument of the call is what its entry point asks for. -/
def EntryCall.wellFormed : EntryCall → Bool
  | .and a b => Value.isBit a && Value.isBit b
  | .or a b => Value.isBit a && Value.isBit b
  | .not a => Value.isBit a
  | .xor a b => Value.isBit a && Value.isBit b
  | .nand a b => Value.isBit a && Value.isBit b
  | .ha a b => Value.isBit a && Value.isBit b
  | .fa a b cin => Value.isBit a && Value.isBit b && Value.isBit cin
  | .add4 a b cin => Value.isNibble a && Value.isNibble b && cin.all Value.isBit
  | .onesComplement x => Value.isNibble x
  | .twosComplement x => Value.isNibble x
  | .addSubtract a b op => Value.isNibble a && Value.isNibble b && Value.isBit op
  | .toSignedValue r s c => Value.isNibble r && s.isBoolean && Value.isBit c

/-- The entry points whose boundary checks its arguments and reports errors (spec/30_encoding.md R307). -/
def EntryCall.checked : EntryCall → Bool
  | .add4 _ _ _ | .onesComplement _ | .twosComplement _ | .addSubtract _ _ _ => true
  | .and _ _ | .or _ _ | .not _ | .xor _ _ | .nand _ _ | .ha _ _ | .fa _ _ _ | .toSignedValue _ _ _ => false

end Sys2Proof
end

