-- ==== Sys2Proof/Decode.lean ====
section
/-! DEFINITION. Invocation words (spec/30_encoding.md section 3): the dispatch codes, the formats, the decoder, total
on any Bits, and after it the encoder. Codes and formats are the spec's own choice
(spec/92_eei_decisions.md D4). -/

namespace Sys2Proof

/-! ## Dispatch codes and formats -/

/-- The dispatch code FN[3:0], FN[3] first (R309). -/
def Fn.code : Fn → Bits
  | .and => [false, false, false, false]
  | .or => [false, false, false, true]
  | .not => [false, false, true, false]
  | .xor => [false, false, true, true]
  | .nand => [false, true, false, false]
  | .ha => [false, true, false, true]
  | .fa => [false, true, true, false]
  | .add4 => [false, true, true, true]
  | .ones => [true, false, false, false]
  | .twos => [true, false, false, true]
  | .add => [true, false, true, false]
  | .sub => [true, false, true, true]
  | .toSigned => [true, true, false, false]

/-- The operation a dispatch code names, `none` for the reserved codes 1101, 1110 and 1111 (R309, R312). -/
def fnOf : Bit → Bit → Bit → Bit → Option Fn
  | false, false, false, false => some .and
  | false, false, false, true => some .or
  | false, false, true, false => some .not
  | false, false, true, true => some .xor
  | false, true, false, false => some .nand
  | false, true, false, true => some .ha
  | false, true, true, false => some .fa
  | false, true, true, true => some .add4
  | true, false, false, false => some .ones
  | true, false, false, true => some .twos
  | true, false, true, false => some .add
  | true, false, true, true => some .sub
  | true, true, false, false => some .toSigned
  | true, true, false, true => none
  | true, true, true, false => none
  | true, true, true, true => none

/-- The format of each operation's word (R310). -/
def Fn.format : Fn → Format
  | .and => .g2
  | .or => .g2
  | .not => .g1
  | .xor => .g2
  | .nand => .g2
  | .ha => .g2
  | .fa => .g3
  | .add4 => .n2c
  | .ones => .n1
  | .twos => .n1
  | .add => .n2
  | .sub => .n2
  | .toSigned => .i

/-- The width W of a format (R310). -/
def Format.width : Format → Nat
  | .g1 => 5
  | .g2 => 6
  | .g3 => 7
  | .n1 => 8
  | .n2c => 13
  | .n2 => 12
  | .i => 10

/-! ## The decoder -/

/-- Why a stretch of Bits does not begin with an invocation word: a reserved FN (R312), fewer Bits after FN than the
format has, or fewer than the four Bits of FN. -/
inductive DecodeError where
  | reservedFn (f3 f2 f1 f0 : Bit)
  | truncated (fn : Fn)
  | noFn
deriving DecidableEq, Repr

/-- The fields of format G1: a. -/
def readG1 (mk : Bit → Instr) : Bits → Option (Instr × Bits)
  | a :: rest => some (mk a, rest)
  | _ => none

/-- The fields of format G2: a, b. -/
def readG2 (mk : Bit → Bit → Instr) : Bits → Option (Instr × Bits)
  | a :: b :: rest => some (mk a b, rest)
  | _ => none

/-- The fields of format G3: a, b, cin. -/
def readG3 (mk : Bit → Bit → Bit → Instr) : Bits → Option (Instr × Bits)
  | a :: b :: cin :: rest => some (mk a b cin, rest)
  | _ => none

/-- A Nibble field, its leftmost Bit the most significant (R311). -/
def readNibble : Bits → Option (Nibble × Bits)
  | n0 :: n1 :: n2 :: n3 :: rest => some (⟨n0, n1, n2, n3⟩, rest)
  | _ => none

/-- The fields of format N1: x. -/
def readN1 (mk : Nibble → Instr) (bits : Bits) : Option (Instr × Bits) :=
  match readNibble bits with
  | some (x, rest) => some (mk x, rest)
  | none => none

/-- The fields of format N2: a, b. -/
def readN2 (mk : Nibble → Nibble → Instr) (bits : Bits) : Option (Instr × Bits) :=
  match readNibble bits with
  | some (a, more) => readN1 (mk a) more
  | none => none

/-- The fields of format N2C: a, b, cin. -/
def readN2C (mk : Nibble → Nibble → Bit → Instr) (bits : Bits) : Option (Instr × Bits) :=
  match readNibble bits with
  | some (a, more) =>
    match readNibble more with
    | some (b, more') => readG1 (mk a b) more'
    | none => none
  | none => none

/-- The fields of format I: r, s, c. -/
def readI (mk : Nibble → Bit → Bit → Instr) (bits : Bits) : Option (Instr × Bits) :=
  match readNibble bits with
  | some (r, more) => readG2 (mk r) more
  | none => none

/-- The input ports of an operation, read after its FN (R310, R311). -/
def readFields : Fn → Bits → Option (Instr × Bits)
  | .and => readG2 .and
  | .or => readG2 .or
  | .not => readG1 .not
  | .xor => readG2 .xor
  | .nand => readG2 .nand
  | .ha => readG2 .ha
  | .fa => readG3 .fa
  | .add4 => readN2C .add4
  | .ones => readN1 .ones
  | .twos => readN1 .twos
  | .add => readN2 .add
  | .sub => readN2 .sub
  | .toSigned => readI .toSigned

/-- The first invocation word of a stretch of Bits, and the Bits after it: FN tells the length (R311). -/
def decode : Bits → Except DecodeError (Instr × Bits)
  | f3 :: f2 :: f1 :: f0 :: fields =>
    match fnOf f3 f2 f1 f0 with
    | some fn =>
      match readFields fn fields with
      | some read => .ok read
      | none => .error (.truncated fn)
    | none => .error (.reservedFn f3 f2 f1 f0)
  | _ => .error .noFn

/-! ## The encoder -/

/-- The operation of an invocation. -/
def Instr.fn : Instr → Fn
  | .and _ _ => .and
  | .or _ _ => .or
  | .not _ => .not
  | .xor _ _ => .xor
  | .nand _ _ => .nand
  | .ha _ _ => .ha
  | .fa _ _ _ => .fa
  | .add4 _ _ _ => .add4
  | .ones _ => .ones
  | .twos _ => .twos
  | .add _ _ => .add
  | .sub _ _ => .sub
  | .toSigned _ _ _ => .toSigned

/-- A Nibble's Bits, most significant first (R310). -/
def Nibble.bits (x : Nibble) : Bits := [x.n0, x.n1, x.n2, x.n3]

/-- The Bits of the input ports, in port order (R310). -/
def Instr.fields : Instr → Bits
  | .and a b => [a, b]
  | .or a b => [a, b]
  | .not a => [a]
  | .xor a b => [a, b]
  | .nand a b => [a, b]
  | .ha a b => [a, b]
  | .fa a b cin => [a, b, cin]
  | .add4 a b cin => a.bits ++ b.bits ++ [cin]
  | .ones x => x.bits
  | .twos x => x.bits
  | .add a b => a.bits ++ b.bits
  | .sub a b => a.bits ++ b.bits
  | .toSigned r s c => r.bits ++ [s, c]

/-- The invocation word: FN and then the input ports (R310). -/
def encode (i : Instr) : Bits := i.fn.code ++ i.fields

/-! ## Words as numbers -/

/-- The low `width` Bits of a number, `w[width-1]` first (R310). -/
def bitsOfNat (w : Nat) : Nat → Bits
  | 0 => []
  | k + 1 => w.testBit k :: bitsOfNat w k

/-- The invocation word that the number `w` spells in a container of the given width: the widest reading that is
exactly one word, the Bits above it 0. A number alone does not fix a word's width, since 4 is `OR 0, 0` in six Bits and
`NOT 0` in five (log entry 7). -/
def tableBits (w : Nat) : Nat → Option Bits
  | 0 => none
  | k + 1 =>
    if w < 2 ^ (k + 1) then
      match decode (bitsOfNat w (k + 1)) with
      | .ok (_, []) => some (bitsOfNat w (k + 1))
      | _ => tableBits w k
    else none

/-- What the decoder reads from a word numbered as spec/opcode_table.json numbers it. `nbits` is the row's width, or
that width in whole bytes. -/
def decodeTableWord (nbits w : Nat) : Option Instr :=
  match tableBits w nbits with
  | some bits =>
    match decode bits with
    | .ok (i, _) => some i
    | .error _ => none
  | none => none

/-! ## Lines -/

/-- What a line expands to; `add4` with no carry-in takes 0 (R315; spec/41_adders.md R502). -/
def Line.expand : Line → Instr
  | .core i => i
  | .add4Default a b => .add4 a b false
  | .neg x => .twos x
  | .addsub a b false => .add a b
  | .addsub a b true => .sub a b

end Sys2Proof
end

