-- ==== Sys2Proof/Machine/State.lean ====
section
/-! DEFINITION. The state, the outputs an evaluation returns, and the reasons a step can stop.

The core's own state is the unit type (spec/10_state.md R100 to R105). Beside it State holds what stands on its ports, on
the caller's side of them: the calls still to be made and what the last one returned (log entry 1). -/

namespace Sys2Proof.Machine

/-- The values on the output ports of a sub-block after one evaluation (spec/10_state.md R109, R110). -/
inductive Outputs where
  /-- AND, OR, NOT, XOR, NAND. -/
  | gate (y : Bit)
  /-- HA. -/
  | halfAdder (sum carry : Bit)
  /-- FA. -/
  | fullAdder (sum cout : Bit)
  /-- ADD4. -/
  | adder (r : Nibble) (cout : Bit)
  /-- ONES, TWOS. -/
  | complement (y : Nibble)
  /-- ADD, SUB. -/
  | addSub (r : Nibble) (c : Bit)
  /-- TO_SIGNED. -/
  | interpreter (v : Int)
  /-- The assembled block: R, C, V. -/
  | topLevel (R : Nibble) (C : Bit) (V : Int)
deriving DecidableEq, Repr

/-- What the last evaluation returned to the caller: every output, or exactly one error and no output
(spec/60_exceptions.md R902); `nothing` before the first evaluation. -/
inductive Reply where
  | nothing
  | outputs (o : Outputs)
  | error (e : BoundaryError)
deriving DecidableEq, Repr

/-- The core's own state: the unit type, for the core stores nothing (spec/10_state.md R100 to R105). -/
abbrev CoreState : Type := Unit

/-- The core, and the two ends of its ports as the caller holds them. The ports' fields are not core state: they stand for
the caller's driving and reading, which a step of the host's interface needs (log entry 1). -/
structure State where
  /-- All that the core holds: nothing. -/
  core : CoreState
  /-- The caller's: the calls it has still to make, in order. -/
  calls : List Call
  /-- The caller's: what the last evaluation returned to it. -/
  reply : Reply
deriving DecidableEq, Repr

/-- Nothing stops the core with a fault: the spec's three errors are returned to the caller and the next evaluation
is as any other (spec/60_exceptions.md R905, R908, R909), so they are replies (log entry 3). No one raises a fault. -/
inductive Fault where
deriving DecidableEq, Repr

/-- Why a step claims nothing. Each is safe: it proves no output. -/
inductive Refusal where
  /-- An instruction of the table with no meaning yet; raised by exec alone. -/
  | notModelled (mnemonic : String)
  /-- A word with a reserved FN (spec/30_encoding.md R312); raised by step. -/
  | reservedFn (f3 f2 f1 f0 : Bit)
  /-- The Bits driven end inside a word (log entry 5); raised by step. -/
  | truncatedWord
  /-- A non-Bit argument of AND, OR, NOT, XOR, NAND, HA or FA (spec/60_exceptions.md R907, D9); raised by step. -/
  | gateArgument
  /-- An ill-typed argument of TO_SIGNED (spec/60_exceptions.md R907, D8); raised by step. -/
  | interpreterArgument
  /-- The caller drives nothing, so there is no evaluation to make (log entry 4); raised by step. -/
  | nothingDriven
deriving DecidableEq, Repr

/-- No reset exists and nothing is reset (spec/70_reset_and_hazards.md R1000): no call is listed and nothing has been
returned (log entry 2). -/
def State.reset : State where
  core := ()
  calls := []
  reply := .nothing

end Sys2Proof.Machine
end

