-- ==== Sys2Proof/Machine/Ops.lean ====
section
/-! DEFINITION. The two ways an evaluation ends (spec/60_exceptions.md R902). -/

namespace Sys2Proof.Machine

/-- The caller's list of calls after one is taken from it. -/
def State.withCalls (s : State) (calls : List Call) : State := { s with calls := calls }

/-- The state in which the outputs have been returned. -/
def State.answer (s : State) (o : Outputs) : State := { s with reply := .outputs o }

/-- The state in which one error has been returned. -/
def State.fail (s : State) (e : BoundaryError) : State := { s with reply := .error e }

/-- An evaluation ends with every output produced (spec/20_memory.md R206). -/
def deliver (o : Outputs) (s : State) : Host.Outcome State Fault Refusal := .next (s.answer o)

/-- An evaluation ends with one error reported to the caller: no output is produced, nothing is saved and nothing else
changes (spec/60_exceptions.md R902, R908). There is no return from it: the next evaluation is as any other (R909). -/
def raise (e : BoundaryError) (s : State) : Host.Outcome State Fault Refusal := .next (s.fail e)

/-- The cause code of an error (spec/60_exceptions.md R900, D19). -/
def errorCode : BoundaryError → Nat
  | .invalidLength _ _ => 1
  | .invalidBit _ _ => 2
  | .invalidOperation _ => 3

end Sys2Proof.Machine
end

