-- ==== Sys2Proof/Machine/Boundary.lean ====
section
/-! DEFINITION. The boundary decoder (spec/30_encoding.md R304 to R307): untyped arguments become typed port values, or
one error (spec/60_exceptions.md R900 to R905) or a refusal (R907) comes back. The order of the checks is
spec/60_exceptions.md R903. -/

namespace Sys2Proof.Machine

/-! ## One argument -/

/-- The Bit a value is, if it is one. -/
def bitOf (v : Value) : Option Bit := if v = 0 then some false else if v = 1 then some true else none

/-- Element `i` of a Nibble argument (R304). -/
def decodeElement (argument : ArgName) (i : Fin 4) (v : Value) : Except BoundaryError Bit :=
  match bitOf v with
  | some b => .ok b
  | none => .error (.invalidBit argument (some i))

/-- A standalone Bit argument (R305). -/
def decodeBit (argument : ArgName) (v : Value) : Except BoundaryError Bit :=
  match bitOf v with
  | some b => .ok b
  | none => .error (.invalidBit argument none)

/-- The Operation Selector (R306). -/
def decodeOp (v : Value) : Except BoundaryError Bit :=
  match bitOf v with
  | some b => .ok b
  | none => .error (.invalidOperation v)

/-- The length check of a Nibble argument (R304). -/
def checkLength (argument : ArgName) (vs : List Value) : Except BoundaryError Unit :=
  if vs.length = Config.nibbleWidth then .ok () else .error (.invalidLength argument vs.length)

/-- The elements of a Nibble argument, index 0 to 3; index 0 is the most significant (R304). Another length is the
error of the length check, which comes first. -/
def decodeElements (argument : ArgName) : List Value → Except BoundaryError Nibble
  | [v0, v1, v2, v3] => do
    let n0 ← decodeElement argument 0 v0
    let n1 ← decodeElement argument 1 v1
    let n2 ← decodeElement argument 2 v2
    let n3 ← decodeElement argument 3 v3
    return ⟨n0, n1, n2, n3⟩
  | vs => .error (.invalidLength argument vs.length)

/-- A Nibble argument (R304). -/
def decodeNibble (argument : ArgName) (vs : List Value) : Except BoundaryError Nibble := do
  checkLength argument vs
  decodeElements argument vs

/-- The Nibble a sequence is, if it is one. -/
def nibbleOf (vs : List Value) : Option Nibble :=
  match decodeNibble .x vs with
  | .ok x => some x
  | .error _ => none

/-- The 1-bit form of a Boolean (R303). -/
def flagOf : FlagArg → Option Bit
  | .bool b => some b
  | .nonBoolean _ => none

/-- The carry-in of `add4`: 0 when the caller gives none (R305). -/
def decodeCarryIn : Option Value → Except BoundaryError Bit
  | none => .ok false
  | some v => decodeBit .cin v

/-! ## One call -/

/-- What the boundary makes of a call. -/
inductive Admission where
  | run (i : Instr)
  | error (e : BoundaryError)
  | refuse (r : Refusal)
deriving DecidableEq, Repr

/-- The result of a checked entry point's decoding. -/
def Admission.ofExcept : Except BoundaryError Instr → Admission
  | .ok i => .run i
  | .error e => .error e

/-- The result of an unchecked entry point's decoding: an ill-typed argument is refused, with no output and no error. -/
def Admission.ofOption (r : Refusal) : Option Instr → Admission
  | some i => .run i
  | none => .refuse r

/-- `add4(a, b, cin)`: lengths, then the elements of a, of b, then cin (spec/60_exceptions.md R903). -/
def entryAdd4 (a b : List Value) (cin : Option Value) : Except BoundaryError Instr := do
  checkLength .a a
  checkLength .b b
  let x ← decodeElements .a a
  let y ← decodeElements .b b
  let c ← decodeCarryIn cin
  return .add4 x y c

/-- `ones_complement(x)` (R307, D7). -/
def entryOnes (x : List Value) : Except BoundaryError Instr := do
  return .ones (← decodeNibble .x x)

/-- `twos_complement(x)` (R307). -/
def entryTwos (x : List Value) : Except BoundaryError Instr := do
  return .twos (← decodeNibble .x x)

/-- `add_subtract(a, b, op)`: op, lengths, then the elements of a and of b (spec/60_exceptions.md R903). The call is
ADD for op = 0 and SUB for op = 1 (R315). -/
def entryAddSubtract (a b : List Value) (op : Value) : Except BoundaryError Instr := do
  let o ← decodeOp op
  checkLength .a a
  checkLength .b b
  let x ← decodeElements .a a
  let y ← decodeElements .b b
  return (match o with
    | false => .add x y
    | true => .sub x y)

/-- `to_signed_value(r, s, c)`: every argument well-typed, or `none` (R307, D8). -/
def entryToSigned (r : List Value) (s : FlagArg) (c : Value) : Option Instr := do
  return .toSigned (← nibbleOf r) (← flagOf s) (← bitOf c)

/-- A gate's or a half adder's two Bits, or `none` (R307, D9). -/
def entryG2 (mk : Bit → Bit → Instr) (a b : Value) : Option Instr := do
  return mk (← bitOf a) (← bitOf b)

/-- NOT's Bit, or `none` (R307, D9). -/
def entryG1 (mk : Bit → Instr) (a : Value) : Option Instr := do
  return mk (← bitOf a)

/-- A full adder's three Bits, or `none` (R307, D9). -/
def entryG3 (mk : Bit → Bit → Bit → Instr) (a b cin : Value) : Option Instr := do
  return mk (← bitOf a) (← bitOf b) (← bitOf cin)

/-- The boundary of each entry point (R307). -/
def decodeEntry : EntryCall → Admission
  | .and a b => .ofOption .gateArgument (entryG2 .and a b)
  | .or a b => .ofOption .gateArgument (entryG2 .or a b)
  | .not a => .ofOption .gateArgument (entryG1 .not a)
  | .xor a b => .ofOption .gateArgument (entryG2 .xor a b)
  | .nand a b => .ofOption .gateArgument (entryG2 .nand a b)
  | .ha a b => .ofOption .gateArgument (entryG2 .ha a b)
  | .fa a b cin => .ofOption .gateArgument (entryG3 .fa a b cin)
  | .add4 a b cin => .ofExcept (entryAdd4 a b cin)
  | .onesComplement x => .ofExcept (entryOnes x)
  | .twosComplement x => .ofExcept (entryTwos x)
  | .addSubtract a b op => .ofExcept (entryAddSubtract a b op)
  | .toSignedValue r s c => .ofOption .interpreterArgument (entryToSigned r s c)

/-! ## One word -/

/-- The refusal a decoder's rejection becomes (R312; log entry 5). -/
def refusalOf : DecodeError → Refusal
  | .reservedFn f3 f2 f1 f0 => .reservedFn f3 f2 f1 f0
  | .truncated _ => .truncatedWord
  | .noFn => .truncatedWord

/-- The calls left after a word is read: its caller goes on with the Bits after it, if there are any (log entry 5). -/
def remaining (left : Bits) (later : List Call) : List Call :=
  match left with
  | [] => later
  | _ :: _ => .words left :: later

end Sys2Proof.Machine
end

