-- ==== Sys2Proof/Machine/Operands.lean ====
section
/-! DEFINITION. The readings of a Nibble as a number, its positions, and the interpreter's output port. -/

namespace Sys2Proof.Machine

/-- A Bit as the integer 0 or 1. -/
def bval : Bit → Nat
  | false => 0
  | true => 1

/-- The unsigned value, the weighted sum with the most significant Bit of weight 8 (spec/00_scope.md R14). -/
def uval (x : Nibble) : Nat := 8 * bval x.n0 + 4 * bval x.n1 + 2 * bval x.n2 + bval x.n3

/-- The signed value (spec/00_scope.md R15). No operation outputs it. -/
def sval (x : Nibble) : Int := (uval x : Int) - 16 * (bval x.n0 : Int)

/-- The Nibble of a number's low four Bits; for 0..15 the Nibble of that unsigned value (spec/00_scope.md R14). -/
def nib (v : Nat) : Nibble := ⟨v.testBit 3, v.testBit 2, v.testBit 1, v.testBit 0⟩

/-- Position `x[k]`, of weight 2^k (spec/00_scope.md R13). -/
def position (x : Nibble) : Fin 4 → Bit
  | 0 => x.n3
  | 1 => x.n2
  | 2 => x.n1
  | 3 => x.n0

/-- `{c, x}`, the five-bit value with `c` most significant (spec/00_scope.md R16). -/
def concat (c : Bit) (x : Nibble) : Nat := 16 * bval c + uval x

/-- The interpreter's output on a hardware port, five Bits in two's complement (spec/44_interpret.md R802). -/
def portV (v : Int) : BitVec 5 := BitVec.ofInt 5 v

/-- The integer a value of that port stands for: `uval(V[3:0]) - 16*V[4]` (spec/44_interpret.md R802). -/
def portValue (V : BitVec 5) : Int := ((V.extractLsb' 0 4).toNat : Int) - 16 * (if V.getLsbD 4 then 1 else 0)

end Sys2Proof.Machine
end

