-- ==== Sys2Proof/Machine/Flags.lean ====
section
/-! DEFINITION. The one flag of the core, the Carry/Borrow Flag (spec/10_state.md R107, R108): an output Bit that lasts
as long as its evaluation. Its value comes from the adders; here is which outputs carry it. -/

namespace Sys2Proof.Machine

/-- The carry among the outputs: of HA, FA, ADD4, ADD and SUB, and of the assembled block; of no other component (R107).
TWOS discards the carry of its ADD4. -/
def carryFlag : Outputs → Option Bit
  | .gate _ => none
  | .halfAdder _ carry => some carry
  | .fullAdder _ cout => some cout
  | .adder _ cout => some cout
  | .complement _ => none
  | .addSub _ c => some c
  | .interpreter _ => none
  | .topLevel _ C _ => some C

end Sys2Proof.Machine
end

