-- ==== Sys2Proof/Machine/Gates.lean ====
section
/-! DEFINITION. The five gates (spec/40_gates.md): AND, OR and NOT by their tables, XOR and NAND as their compositions,
never native Boolean operators (R405). -/

namespace Sys2Proof.Machine

/-- AND (R400). -/
def andGate : Bit → Bit → Bit
  | true, true => true
  | true, false => false
  | false, true => false
  | false, false => false

/-- OR (R401). -/
def orGate : Bit → Bit → Bit
  | false, false => false
  | false, true => true
  | true, false => true
  | true, true => true

/-- NOT (R402). -/
def notGate : Bit → Bit
  | false => true
  | true => false

/-- XOR (R403). -/
def xorGate (a b : Bit) : Bit :=
  let nb := notGate b
  let na := notGate a
  let p := andGate a nb
  let q := andGate na b
  orGate p q

/-- NAND (R404). -/
def nandGate (a b : Bit) : Bit := notGate (andGate a b)

/-- AND a, b -> y (R400). -/
def execAnd (a b : Bit) (s : State) : Host.Outcome State Fault Refusal := deliver (.gate (andGate a b)) s

/-- OR a, b -> y (R401). -/
def execOr (a b : Bit) (s : State) : Host.Outcome State Fault Refusal := deliver (.gate (orGate a b)) s

/-- NOT a -> y (R402). -/
def execNot (a : Bit) (s : State) : Host.Outcome State Fault Refusal := deliver (.gate (notGate a)) s

/-- XOR a, b -> y (R403). -/
def execXor (a b : Bit) (s : State) : Host.Outcome State Fault Refusal := deliver (.gate (xorGate a b)) s

/-- NAND a, b -> y (R404). -/
def execNand (a b : Bit) (s : State) : Host.Outcome State Fault Refusal := deliver (.gate (nandGate a b)) s

end Sys2Proof.Machine
end

