-- ==== Sys2Proof/Machine/Adders.lean ====
section
/-! DEFINITION. The adders (spec/41_adders.md). The structure is part of the definition (R505): FA is two HAs and an OR,
ADD4 is four FAs. -/

namespace Sys2Proof.Machine

/-- The half adder: (sum, carry) (R500). -/
def halfAdder (a b : Bit) : Bit × Bit := (xorGate a b, andGate a b)

/-- The full adder: (sum, cout) (R501). -/
def fullAdder (a b cin : Bit) : Bit × Bit :=
  let first := halfAdder a b
  let second := halfAdder first.1 cin
  (second.1, orGate first.2 second.2)

/-- The ripple adder: (r, cout), from the least significant position (index 3) up (R502). -/
def add4 (a b : Nibble) (cin : Bit) : Nibble × Bit :=
  let p0 := fullAdder a.n3 b.n3 cin
  let p1 := fullAdder a.n2 b.n2 p0.2
  let p2 := fullAdder a.n1 b.n1 p1.2
  let p3 := fullAdder a.n0 b.n0 p2.2
  (⟨p3.1, p2.1, p1.1, p0.1⟩, p3.2)

/-- HA a, b -> sum, carry (R500). -/
def execHa (a b : Bit) (s : State) : Host.Outcome State Fault Refusal :=
  deliver (.halfAdder (halfAdder a b).1 (halfAdder a b).2) s

/-- FA a, b, cin -> sum, cout (R501). -/
def execFa (a b cin : Bit) (s : State) : Host.Outcome State Fault Refusal :=
  deliver (.fullAdder (fullAdder a b cin).1 (fullAdder a b cin).2) s

/-- ADD4 a, b, cin -> r, cout (R502). -/
def execAdd4 (a b : Nibble) (cin : Bit) (s : State) : Host.Outcome State Fault Refusal :=
  deliver (.adder (add4 a b cin).1 (add4 a b cin).2) s

end Sys2Proof.Machine
end

