-- ==== Sys2Proof/Machine/Complement.lean ====
section
/-! DEFINITION. Ones' and two's complement (spec/42_complement.md). -/

namespace Sys2Proof.Machine

/-- Ones' complement: NOT at each position (R600). -/
def onesComplement (x : Nibble) : Nibble := ⟨notGate x.n0, notGate x.n1, notGate x.n2, notGate x.n3⟩

/-- The fixed addend `0001` (spec/00_scope.md R10). -/
def nibbleOne : Nibble := ⟨false, false, false, true⟩

/-- The carry-in tied to 0 inside TWOS and the adder/subtractor (spec/30_encoding.md R308, D18). -/
def tiedCarry : Bit := false

/-- Two's complement: ONES plus 0001 with carry-in 0, the carry discarded (R601). -/
def twosComplement (x : Nibble) : Nibble := (add4 (onesComplement x) nibbleOne tiedCarry).1

/-- ONES x -> y (R600). -/
def execOnes (x : Nibble) (s : State) : Host.Outcome State Fault Refusal :=
  deliver (.complement (onesComplement x)) s

/-- TWOS x -> y (R601). -/
def execTwos (x : Nibble) (s : State) : Host.Outcome State Fault Refusal :=
  deliver (.complement (twosComplement x)) s

end Sys2Proof.Machine
end

