-- ==== Sys2Proof/Machine/AddSub.lean ====
section
/-! DEFINITION. The adder/subtractor (spec/43_addsub.md). -/

namespace Sys2Proof.Machine

/-- The mux: a selection on the Operation Selector (R700, R706). -/
def selectOperand (op : Bit) (b : Nibble) : Nibble :=
  match op with
  | true => twosComplement b
  | false => b

/-- The shared datapath: (r, c) (R700). -/
def addSubtract (a b : Nibble) (op : Bit) : Nibble × Bit := add4 a (selectOperand op b) tiedCarry

/-- ADD a, b -> r, c: op = 0 (R701). -/
def execAdd (a b : Nibble) (s : State) : Host.Outcome State Fault Refusal :=
  deliver (.addSub (addSubtract a b false).1 (addSubtract a b false).2) s

/-- SUB a, b -> r, c: op = 1 (R702). -/
def execSub (a b : Nibble) (s : State) : Host.Outcome State Fault Refusal :=
  deliver (.addSub (addSubtract a b true).1 (addSubtract a b true).2) s

end Sys2Proof.Machine
end

