-- ==== Sys2Proof/Machine/Interpret.lean ====
section
/-! DEFINITION. The integer interpreter (spec/44_interpret.md) and the assembled top-level block
(spec/10_state.md R110). -/

namespace Sys2Proof.Machine

/-- The value of a result, the kind of operation and its carry: unsigned unless it is a subtraction with carry 0, then
minus the magnitude TWOS recovers (R800). -/
def toSignedValue (r : Nibble) (s c : Bit) : Int :=
  match s, c with
  | false, _ => (uval r : Int)
  | true, true => (uval r : Int)
  | true, false => -(uval (twosComplement r) : Int)

/-- TO_SIGNED r, s, c -> v (R800). -/
def execToSigned (r : Nibble) (isSub c : Bit) (s : State) : Host.Outcome State Fault Refusal :=
  deliver (.interpreter (toSignedValue r isSub c)) s

/-- The assembled block: (R, C) from the adder/subtractor and V from the interpreter, whose `s` is OP
(spec/10_state.md R110, D16). -/
def evalTopLevel (A B : Nibble) (OP : Bit) (s : State) : Host.Outcome State Fault Refusal :=
  let rc := addSubtract A B OP
  deliver (.topLevel rc.1 rc.2 (toSignedValue rc.1 OP rc.2)) s

end Sys2Proof.Machine
end

