-- ==== Sys2Proof/Machine/Dispatch.lean ====
section
/-! DEFINITION. One arm per operation of spec/opcode_table.json. -/

namespace Sys2Proof.Machine

def exec (i : Instr) (s : State) : Host.Outcome State Fault Refusal :=
  match i with
  | .and a b => Sys2Proof.Machine.execAnd a b s
  | .or a b => Sys2Proof.Machine.execOr a b s
  | .not a => Sys2Proof.Machine.execNot a s
  | .xor a b => Sys2Proof.Machine.execXor a b s
  | .nand a b => Sys2Proof.Machine.execNand a b s
  | .ha a b => Sys2Proof.Machine.execHa a b s
  | .fa a b cin => Sys2Proof.Machine.execFa a b cin s
  | .add4 a b cin => Sys2Proof.Machine.execAdd4 a b cin s
  | .ones x => Sys2Proof.Machine.execOnes x s
  | .twos x => Sys2Proof.Machine.execTwos x s
  | .add a b => Sys2Proof.Machine.execAdd a b s
  | .sub a b => Sys2Proof.Machine.execSub a b s
  | .toSigned r f c => Sys2Proof.Machine.execToSigned r f c s

end Sys2Proof.Machine
end

