-- ==== Sys2Proof/Machine/Step.lean ====
section
/-! DEFINITION. One step is one evaluation of the entry point the caller drives next (spec/10_state.md R101;
spec/70_reset_and_hazards.md R1004). -/

namespace Sys2Proof.Machine

/-- One evaluation. A call's errors are reported before anything is evaluated (spec/60_exceptions.md R902). -/
def step (s : State) : Host.Outcome State Fault Refusal :=
  match s.calls with
  | [] => .refused .nothingDriven
  | .words bits :: later =>
    match decode bits with
    | .ok (i, left) => exec i (s.withCalls (remaining left later))
    | .error e => .refused (refusalOf e)
  | .entry c :: later =>
    match decodeEntry c with
    | .run i => exec i (s.withCalls later)
    | .error e => raise e (s.withCalls later)
    | .refuse r => .refused r
  | .line l :: later => exec l.expand (s.withCalls later)
  | .topLevel A B OP :: later => evalTopLevel A B OP (s.withCalls later)

/-- The caller drives one more word before its other calls: the word the number `w` spells (log entries 2 and 7); where
it spells none, its `nbits` low Bits as they stand. -/
def State.withFetchWord (s : State) (nbits w : Nat) : State :=
  s.withCalls (.words ((tableBits w nbits).getD (bitsOfNat w nbits)) :: s.calls)

end Sys2Proof.Machine
end

