-- ==== Sys2Proof/Machine/Assembler.lean ====
section
/-! DEFINITION. The text of lines (spec/30_encoding.md R314, R315), and a text's invocation word. The line form is the
spec's own (spec/92_eei_decisions.md D15). Text is a list of characters. -/

namespace Sys2Proof.Machine

/-! ## Writing -/

/-- A Bit operand (R314). -/
def bitChar : Bit → Char
  | false => '0'
  | true => '1'

/-- A Nibble operand in string form (R314; spec/00_scope.md R12). -/
def nibbleChars (x : Nibble) : List Char := x.bits.map bitChar

/-- Operands or outputs, with `, ` between them. -/
def commaSeparated : List (List Char) → List Char
  | [] => []
  | [w] => w
  | w :: ws => w ++ ',' :: ' ' :: commaSeparated ws

/-- The mnemonic of an operation, as spec/opcode_table.json has it. -/
def mnemonicChars : Fn → List Char
  | .and => ['A', 'N', 'D']
  | .or => ['O', 'R']
  | .not => ['N', 'O', 'T']
  | .xor => ['X', 'O', 'R']
  | .nand => ['N', 'A', 'N', 'D']
  | .ha => ['H', 'A']
  | .fa => ['F', 'A']
  | .add4 => ['A', 'D', 'D', '4']
  | .ones => ['O', 'N', 'E', 'S']
  | .twos => ['T', 'W', 'O', 'S']
  | .add => ['A', 'D', 'D']
  | .sub => ['S', 'U', 'B']
  | .toSigned => ['T', 'O', '_', 'S', 'I', 'G', 'N', 'E', 'D']

/-- The mnemonic of the pseudo form NEG (R315). -/
def negChars : List Char := ['N', 'E', 'G']

/-- The mnemonic of the pseudo form ADDSUB (R315). -/
def addsubChars : List Char := ['A', 'D', 'D', 'S', 'U', 'B']

/-- The operands of an operation, in port order. -/
def operandChars : Instr → List (List Char)
  | .and a b => [[bitChar a], [bitChar b]]
  | .or a b => [[bitChar a], [bitChar b]]
  | .not a => [[bitChar a]]
  | .xor a b => [[bitChar a], [bitChar b]]
  | .nand a b => [[bitChar a], [bitChar b]]
  | .ha a b => [[bitChar a], [bitChar b]]
  | .fa a b cin => [[bitChar a], [bitChar b], [bitChar cin]]
  | .add4 a b cin => [nibbleChars a, nibbleChars b, [bitChar cin]]
  | .ones x => [nibbleChars x]
  | .twos x => [nibbleChars x]
  | .add a b => [nibbleChars a, nibbleChars b]
  | .sub a b => [nibbleChars a, nibbleChars b]
  | .toSigned r s c => [nibbleChars r, [bitChar s], [bitChar c]]

/-- `MNEMONIC operand, operand, ...` (R314). -/
def lineText : Line → List Char
  | .core i => mnemonicChars i.fn ++ ' ' :: commaSeparated (operandChars i)
  | .add4Default a b => mnemonicChars .add4 ++ ' ' :: commaSeparated [nibbleChars a, nibbleChars b]
  | .neg x => negChars ++ ' ' :: nibbleChars x
  | .addsub a b op => addsubChars ++ ' ' :: commaSeparated [nibbleChars a, nibbleChars b, [bitChar op]]

/-- An integer in decimal. -/
def intChars (v : Int) : List Char :=
  if v < 0 then '-' :: Nat.toDigits 10 v.natAbs else Nat.toDigits 10 v.natAbs

/-- The outputs, in port order. -/
def outputChars : Outputs → List (List Char)
  | .gate y => [[bitChar y]]
  | .halfAdder sum carry => [[bitChar sum], [bitChar carry]]
  | .fullAdder sum cout => [[bitChar sum], [bitChar cout]]
  | .adder r cout => [nibbleChars r, [bitChar cout]]
  | .complement y => [nibbleChars y]
  | .addSub r c => [nibbleChars r, [bitChar c]]
  | .interpreter v => [intChars v]
  | .topLevel R C V => [nibbleChars R, [bitChar C], intChars V]

/-- A line with what follows its arrow (R314). -/
def withComment (text comment : List Char) : List Char := text ++ ' ' :: '-' :: '>' :: ' ' :: comment

/-- A line with its outputs as the comment (R314). -/
def lineWithOutputs (l : Line) (o : Outputs) : List Char := withComment (lineText l) (commaSeparated (outputChars o))

/-! ## Reading -/

/-- A run of characters, or the comma. -/
inductive Token where
  | word (cs : List Char)
  | comma
deriving DecidableEq, Repr

/-- A token list with the word read so far, if any, in front. -/
def flushWord (readSoFar : List Char) (ts : List Token) : List Token :=
  match readSoFar with
  | [] => ts
  | _ :: _ => .word readSoFar.reverse :: ts

/-- The tokens of a text; spaces only separate (log entry 8). `readSoFar` is the current word, last character first. -/
def tokens (readSoFar : List Char) : List Char → List Token
  | [] => flushWord readSoFar []
  | ' ' :: cs => flushWord readSoFar (tokens [] cs)
  | ',' :: cs => flushWord readSoFar (.comma :: tokens [] cs)
  | c :: cs => tokens (c :: readSoFar) cs

/-- Operands with commas between them, up to the end or to an arrow; what follows the arrow is a comment (R314). -/
def readOperands : List Token → Option (List (List Char))
  | .word w :: .comma :: ts =>
    match readOperands ts with
    | some ws => some (w :: ws)
    | none => none
  | .word w :: .word ['-', '>'] :: _ => some [w]
  | [.word w] => some [w]
  | _ => none

/-- A Bit operand (R314). -/
def readBitOperand : List Char → Option Bit
  | ['0'] => some false
  | ['1'] => some true
  | _ => none

/-- One character of a Nibble operand. -/
def readBitChar (c : Char) : Option Bit := readBitOperand [c]

/-- A Nibble operand in string form (R314). -/
def readNibbleOperand : List Char → Option Nibble
  | [c0, c1, c2, c3] => do return ⟨← readBitChar c0, ← readBitChar c1, ← readBitChar c2, ← readBitChar c3⟩
  | _ => none

/-- Two Bit operands. -/
def lineG2 (mk : Bit → Bit → Instr) : List (List Char) → Option Line
  | [a, b] => do return .core (mk (← readBitOperand a) (← readBitOperand b))
  | _ => none

/-- One Nibble operand. -/
def lineN1 (mk : Nibble → Line) : List (List Char) → Option Line
  | [x] => do return mk (← readNibbleOperand x)
  | _ => none

/-- Two Nibble operands. -/
def lineN2 (mk : Nibble → Nibble → Line) : List (List Char) → Option Line
  | [a, b] => do return mk (← readNibbleOperand a) (← readNibbleOperand b)
  | _ => none

/-- Two Nibble operands and a Bit. -/
def lineN2C (mk : Nibble → Nibble → Bit → Line) : List (List Char) → Option Line
  | [a, b, c] => do return mk (← readNibbleOperand a) (← readNibbleOperand b) (← readBitOperand c)
  | _ => none

/-- NOT's operand. -/
def lineG1 : List (List Char) → Option Line
  | [a] => do return .core (.not (← readBitOperand a))
  | _ => none

/-- FA's operands. -/
def lineG3 : List (List Char) → Option Line
  | [a, b, cin] => do return .core (.fa (← readBitOperand a) (← readBitOperand b) (← readBitOperand cin))
  | _ => none

/-- TO_SIGNED's operands. -/
def lineI : List (List Char) → Option Line
  | [r, s, c] => do return .core (.toSigned (← readNibbleOperand r) (← readBitOperand s) (← readBitOperand c))
  | _ => none

/-- ADD4's operands, the carry-in left out in the pseudo form (R315). -/
def lineAdd4 (ws : List (List Char)) : Option Line :=
  match ws with
  | [_, _] => lineN2 .add4Default ws
  | _ => lineN2C (fun a b cin => .core (.add4 a b cin)) ws

/-- The line a mnemonic and its operands spell (R315). -/
def lineOf (mnemonic : List Char) (ws : List (List Char)) : Option Line :=
  if mnemonic = mnemonicChars .and then lineG2 .and ws
  else if mnemonic = mnemonicChars .or then lineG2 .or ws
  else if mnemonic = mnemonicChars .not then lineG1 ws
  else if mnemonic = mnemonicChars .xor then lineG2 .xor ws
  else if mnemonic = mnemonicChars .nand then lineG2 .nand ws
  else if mnemonic = mnemonicChars .ha then lineG2 .ha ws
  else if mnemonic = mnemonicChars .fa then lineG3 ws
  else if mnemonic = mnemonicChars .add4 then lineAdd4 ws
  else if mnemonic = mnemonicChars .ones then lineN1 (fun x => .core (.ones x)) ws
  else if mnemonic = mnemonicChars .twos then lineN1 (fun x => .core (.twos x)) ws
  else if mnemonic = mnemonicChars .add then lineN2 (fun a b => .core (.add a b)) ws
  else if mnemonic = mnemonicChars .sub then lineN2 (fun a b => .core (.sub a b)) ws
  else if mnemonic = mnemonicChars .toSigned then lineI ws
  else if mnemonic = negChars then lineN1 .neg ws
  else if mnemonic = addsubChars then lineN2C .addsub ws
  else none

/-- The line a text spells, if it spells one (R314). -/
def readLine (text : List Char) : Option Line :=
  match tokens [] text with
  | .word mnemonic :: ts =>
    match readOperands ts with
    | some ws => lineOf mnemonic ws
    | none => none
  | _ => none

/-- The invocation word of a text (R310, R315). -/
def assemble (text : List Char) : Option Bits := (readLine text).map fun l => encode l.expand

end Sys2Proof.Machine
end

