-- ==== Sys2Proof/Machine/Netlist.lean ====
section
/-! DEFINITION. The components as circuits of AND, OR and NOT: what spec/41_adders.md R505 says of their structure, the
gate counts of R506, and the reference gate form of the mux (spec/43_addsub.md R706). No meaning uses this file; it
says of the meanings' functions what a function's values cannot show. -/

namespace Sys2Proof.Machine

/-- One primitive gate with the numbers of the wires it reads. -/
inductive Gate where
  | and (i j : Nat)
  | or (i j : Nat)
  | not (i : Nat)
deriving DecidableEq, Repr

/-- Gates in an order of data dependence (spec/70_reset_and_hazards.md R1005): each drives the next free wire. -/
abbrev Netlist := List Gate

/-- The value on a wire. Every netlist below reads driven wires alone (`netlistWf`); another reads 0 (log entry 9). -/
def wireValue (ws : Bits) (i : Nat) : Bit := ws.getD i false

/-- A gate's output. -/
def gateValue (ws : Bits) : Gate → Bit
  | .and i j => andGate (wireValue ws i) (wireValue ws j)
  | .or i j => orGate (wireValue ws i) (wireValue ws j)
  | .not i => notGate (wireValue ws i)

/-- The values on all wires, the input wires first. -/
def evalNetlist : Netlist → Bits → Bits
  | [], ws => ws
  | g :: gs, ws => evalNetlist gs (ws ++ [gateValue ws g])

/-- The wires a gate reads are among the first `n`. -/
def gateWf (n : Nat) : Gate → Bool
  | .and i j => i < n && j < n
  | .or i j => i < n && j < n
  | .not i => i < n

/-- Every gate reads wires driven before it, the first `n` wires being inputs. -/
def netlistWf : Nat → Netlist → Bool
  | _, [] => true
  | n, g :: gs => gateWf n g && netlistWf (n + 1) gs

/-- The numbers of NOT, AND and OR gates (R506). -/
structure GateCount where
  nots : Nat
  ands : Nat
  ors : Nat
deriving DecidableEq, Repr

/-- The gate count of a netlist. -/
def countGates : Netlist → GateCount
  | [] => ⟨0, 0, 0⟩
  | .not _ :: gs => { countGates gs with nots := (countGates gs).nots + 1 }
  | .and _ _ :: gs => { countGates gs with ands := (countGates gs).ands + 1 }
  | .or _ _ :: gs => { countGates gs with ors := (countGates gs).ors + 1 }

/-- Four wires, the most significant first. -/
structure NibbleWires where
  w0 : Nat
  w1 : Nat
  w2 : Nat
  w3 : Nat
deriving DecidableEq, Repr

/-- The Nibble on four wires. -/
def nibbleOn (ws : Bits) (x : NibbleWires) : Nibble :=
  ⟨wireValue ws x.w0, wireValue ws x.w1, wireValue ws x.w2, wireValue ws x.w3⟩

/-! Below, `n` is the number of the first free wire. -/

/-- XOR (spec/40_gates.md R403): y on wire n + 4. -/
def xorNetlist (n a b : Nat) : Netlist := [.not b, .not a, .and a n, .and (n + 1) b, .or (n + 2) (n + 3)]

/-- HA (R500): sum on wire n + 4, carry on wire n + 5. -/
def haNetlist (n a b : Nat) : Netlist := xorNetlist n a b ++ [.and a b]

/-- FA (R501): sum on wire n + 10, cout on wire n + 12. -/
def faNetlist (n a b cin : Nat) : Netlist := haNetlist n a b ++ haNetlist (n + 6) (n + 4) cin ++ [.or (n + 5) (n + 11)]

/-- ADD4 (R502): cout on wire n + 51, r on the wires of `add4Result`. -/
def add4Netlist (n : Nat) (a b : NibbleWires) (cin : Nat) : Netlist :=
  faNetlist n a.w3 b.w3 cin ++ faNetlist (n + 13) a.w2 b.w2 (n + 12) ++ faNetlist (n + 26) a.w1 b.w1 (n + 25) ++
    faNetlist (n + 39) a.w0 b.w0 (n + 38)

/-- The result wires of ADD4. -/
def add4Result (n : Nat) : NibbleWires := ⟨n + 49, n + 36, n + 23, n + 10⟩

/-- ONES (spec/42_complement.md R600): y on the first four free wires. -/
def onesNetlist (x : NibbleWires) : Netlist := [.not x.w0, .not x.w1, .not x.w2, .not x.w3]

/-- TWOS (spec/42_complement.md R601), with the constants 0 and 1 on two wires: y on `add4Result (n + 4)`. -/
def twosNetlist (n : Nat) (x : NibbleWires) (lo hi : Nat) : Netlist :=
  onesNetlist x ++ add4Netlist (n + 4) ⟨n, n + 1, n + 2, n + 3⟩ ⟨lo, lo, lo, hi⟩ lo

/-- One position of the mux: OR(AND(NOT op, b), AND(op, t)), the complement of op on wire `nop` (R706): bb on wire n + 2. -/
def muxBitNetlist (n nop op b t : Nat) : Netlist := [.and nop b, .and op t, .or n (n + 1)]

/-- The mux, NOT op shared by the four positions (R706): bb on the wires of `muxResult`. -/
def muxNetlist (n op : Nat) (b t : NibbleWires) : Netlist :=
  .not op :: (muxBitNetlist (n + 1) n op b.w0 t.w0 ++ muxBitNetlist (n + 4) n op b.w1 t.w1 ++
    muxBitNetlist (n + 7) n op b.w2 t.w2 ++ muxBitNetlist (n + 10) n op b.w3 t.w3)

/-- The output wires of the mux. -/
def muxResult (n : Nat) : NibbleWires := ⟨n + 3, n + 6, n + 9, n + 12⟩

/-- The adder/subtractor: TWOS, the mux and ADD4 (spec/43_addsub.md R700): r on `add4Result (n + 69)`, c on wire
n + 120. -/
def addSubNetlist (n : Nat) (a b : NibbleWires) (op lo hi : Nat) : Netlist :=
  twosNetlist n b lo hi ++ muxNetlist (n + 56) op b (add4Result (n + 4)) ++
    add4Netlist (n + 69) a (muxResult (n + 56)) lo

end Sys2Proof.Machine
end

