-- ==== Sys2Proof/Safety.lean ====
section
/-! DEFINITION. What counts as a legal state, and the terms the statements use. -/

namespace Sys2Proof.Machine

/-! ## Legal replies and states -/

/-- An integer in the interpreter's range (spec/44_interpret.md R801). -/
def inInterpreterRange (v : Int) : Prop := Config.interpreterLow ≤ v ∧ v ≤ Config.interpreterHigh

/-- Outputs the components can give: a half adder's are never both 1 (spec/41_adders.md R500), and the interpreter stays
in its range (spec/44_interpret.md R801). -/
def Outputs.Legal : Outputs → Prop
  | .halfAdder sum carry => ¬(sum = true ∧ carry = true)
  | .interpreter v => inInterpreterRange v
  | .topLevel _ _ V => inInterpreterRange V
  | .gate _ | .fullAdder _ _ | .adder _ _ | .complement _ | .addSub _ _ => True

/-- Errors the boundary can report (spec/60_exceptions.md R900, R901, R904; the payloads are the spec's decision D6):
InvalidLength names a Nibble argument, a, b or x, with a length other than 4; InvalidBit has an index exactly for a
Nibble argument, that is, not for cin; InvalidOperation has a value other than 0 and 1. -/
def LegalError : BoundaryError → Prop
  | .invalidLength argument length => argument ≠ .cin ∧ length ≠ Config.nibbleWidth
  | .invalidBit argument index => argument = .cin ↔ index = none
  | .invalidOperation value => value ≠ 0 ∧ value ≠ 1

/-- A legal reply. -/
def Reply.Legal : Reply → Prop
  | .nothing => True
  | .outputs o => o.Legal
  | .error e => LegalError e

/-- The invariant: the last reply is one the core can give, and every stretch of words still to be driven holds at
least one Bit. -/
def State.Inv (s : State) : Prop := s.reply.Legal ∧ Call.words [] ∉ s.calls

/-! ## Arguments of software calls -/

/-- A Bit as a software value. -/
def bitValue (b : Bit) : Value := (bval b : Int)

/-- A Nibble as a software argument, index 0 first (spec/30_encoding.md R304). -/
def nibbleValues (x : Nibble) : List Value := [bitValue x.n0, bitValue x.n1, bitValue x.n2, bitValue x.n3]

/-- Index `k` is the first whose element is neither 0 nor 1 (spec/60_exceptions.md R903). -/
def FirstNonBit (vs : List Value) (k : Fin 4) : Prop :=
  (∃ v, vs[k.val]? = some v ∧ v ≠ 0 ∧ v ≠ 1) ∧ ∀ j : Fin 4, j < k → vs[j.val]? = some 0 ∨ vs[j.val]? = some 1

/-- The software call that evaluates an instruction (spec/30_encoding.md R315). -/
def entryOf : Instr → EntryCall
  | .and a b => .and (bitValue a) (bitValue b)
  | .or a b => .or (bitValue a) (bitValue b)
  | .not a => .not (bitValue a)
  | .xor a b => .xor (bitValue a) (bitValue b)
  | .nand a b => .nand (bitValue a) (bitValue b)
  | .ha a b => .ha (bitValue a) (bitValue b)
  | .fa a b cin => .fa (bitValue a) (bitValue b) (bitValue cin)
  | .add4 a b cin => .add4 (nibbleValues a) (nibbleValues b) (some (bitValue cin))
  | .ones x => .onesComplement (nibbleValues x)
  | .twos x => .twosComplement (nibbleValues x)
  | .add a b => .addSubtract (nibbleValues a) (nibbleValues b) 0
  | .sub a b => .addSubtract (nibbleValues a) (nibbleValues b) 1
  | .toSigned r s c => .toSignedValue (nibbleValues r) (.bool s) (bitValue c)

/-- A call the core answers, with outputs or with an error: a software call whose entry point checks its arguments or
whose arguments are well-formed, a line, or the assembled block. -/
def Answered : Call → Prop
  | .words _ => False
  | .entry c => c.checked = true ∨ c.wellFormed = true
  | .line _ => True
  | .topLevel _ _ _ => True

end Sys2Proof.Machine
end

