-- ==== Sys2Proof/Certificates/Slice0/Obligations.lean ====
section
/-! DEFINITION. The statements. A statement about `exec i s` or `step s` that says which next state it is says the
whole of it: State has three fields, the core's, which has the one value (), the calls still to be made and the reply. -/

open Sys2Proof Sys2Proof.Machine

/-! ## Gates -/

/-- spec/40_gates.md R400 to R402, pseudocode. The tables of AND, OR and NOT are the spec's from general knowledge. -/
def Obligations.PrimitiveGatesGiveTheirTables : Prop :=
  ∀ (a b : Bit) (s : State),
    exec (.and a b) s = .next { s with reply := .outputs (.gate (if a = true ∧ b = true then true else false)) } ∧
    exec (.or a b) s = .next { s with reply := .outputs (.gate (if a = true ∨ b = true then true else false)) } ∧
    exec (.not a) s = .next { s with reply := .outputs (.gate (if a = false then true else false)) }

/-- spec/40_gates.md R403 to R405: XOR and NAND are their compositions, and have their tables. -/
def Obligations.DerivedGatesAreTheirCompositions : Prop :=
  ∀ (a b : Bit) (s : State), ∃ x n : Bit,
    exec (.xor a b) s = .next { s with reply := .outputs (.gate x) } ∧
    x = orGate (andGate a (notGate b)) (andGate (notGate a) b) ∧ (x = true ↔ a ≠ b) ∧
    exec (.nand a b) s = .next { s with reply := .outputs (.gate n) } ∧
    n = notGate (andGate a b) ∧ (n = true ↔ ¬(a = true ∧ b = true))

/-- spec/40_gates.md R407: each of the five gates gives exactly one Bit and never an error. -/
def Obligations.GatesArePureAndTotal : Prop :=
  ∀ i : Instr, i.fn ∈ [Fn.and, .or, .not, .xor, .nand] →
    ∃! y : Bit, ∀ s : State, exec i s = .next { s with reply := .outputs (.gate y) }

/-! ## Adders -/

/-- spec/41_adders.md R500: pseudocode, and 2*carry + sum = a + b. -/
def Obligations.HalfAdderAddsTwoBits : Prop :=
  ∀ (a b : Bit) (s : State), ∃ sum carry : Bit,
    exec (.ha a b) s = .next { s with reply := .outputs (.halfAdder sum carry) } ∧
    sum = xorGate a b ∧ carry = andGate a b ∧ 2 * bval carry + bval sum = bval a + bval b

/-- spec/41_adders.md R501: two half adders and an OR, whose inputs are never both 1; 2*cout + sum = a + b + cin. -/
def Obligations.FullAdderIsTwoHalfAddersAndAnOr : Prop :=
  ∀ (a b cin : Bit) (s : State), ∃ s1 c1 sum c2 : Bit,
    exec (.ha a b) s = .next { s with reply := .outputs (.halfAdder s1 c1) } ∧
    exec (.ha s1 cin) s = .next { s with reply := .outputs (.halfAdder sum c2) } ∧
    exec (.fa a b cin) s = .next { s with reply := .outputs (.fullAdder sum (orGate c1 c2)) } ∧
    ¬(c1 = true ∧ c2 = true) ∧ 2 * bval (orGate c1 c2) + bval sum = bval a + bval b + bval cin

/-- spec/41_adders.md R502: four full adders, the carry running from position 0 to position 3. -/
def Obligations.RippleAdderChainsFourFullAdders : Prop :=
  ∀ (a b : Nibble) (cin : Bit) (s : State), ∃ (r : Nibble) (c1 c2 c3 c4 : Bit),
    exec (.fa (position a 0) (position b 0) cin) s = .next { s with reply := .outputs (.fullAdder (position r 0) c1) } ∧
    exec (.fa (position a 1) (position b 1) c1) s = .next { s with reply := .outputs (.fullAdder (position r 1) c2) } ∧
    exec (.fa (position a 2) (position b 2) c2) s = .next { s with reply := .outputs (.fullAdder (position r 2) c3) } ∧
    exec (.fa (position a 3) (position b 3) c3) s = .next { s with reply := .outputs (.fullAdder (position r 3) c4) } ∧
    exec (.add4 a b cin) s = .next { s with reply := .outputs (.adder r c4) }

/-- spec/41_adders.md R503, R504: the exact five-bit sum, and the carry says that it exceeds 15. -/
def Obligations.RippleAdderGivesTheExactSum : Prop :=
  ∀ (a b : Nibble) (cin : Bit) (s : State), ∃ (r : Nibble) (cout : Bit),
    exec (.add4 a b cin) s = .next { s with reply := .outputs (.adder r cout) } ∧
    uval r = (uval a + uval b + bval cin) % 16 ∧
    bval cout = (uval a + uval b + bval cin) / 16 ∧
    concat cout r = uval a + uval b + bval cin ∧
    (cout = true ↔ 15 < uval a + uval b + bval cin)

/-- spec/41_adders.md R502 corner cases and R503: commutative in both outputs; 0000 is neutral; a + a is a shift. -/
def Obligations.RippleAdderCommutesAndDoubles : Prop :=
  ∀ (a b : Nibble) (cin : Bit) (s : State),
    exec (.add4 a b cin) s = exec (.add4 b a cin) s ∧
    exec (.add4 a ⟨false, false, false, false⟩ false) s = .next { s with reply := .outputs (.adder a false) } ∧
    exec (.add4 a a false) s = .next { s with reply := .outputs (.adder ⟨a.n1, a.n2, a.n3, false⟩ a.n0) }

/-! ## Complements -/

/-- spec/42_complement.md R600: each position depends on its own Bit alone; 15 - x; self-inverse. -/
def Obligations.OnesComplementInvertsEachPosition : Prop :=
  ∀ (x : Nibble) (s : State), ∃ y : Nibble,
    exec (.ones x) s = .next { s with reply := .outputs (.complement y) } ∧
    (∀ k : Fin 4, position y k = true ↔ position x k = false) ∧
    uval y = 15 - uval x ∧
    exec (.ones y) s = .next { s with reply := .outputs (.complement x) }

/-- spec/42_complement.md R601: ONES plus 0001 with carry-in 0; the carry, 1 exactly for 0000, is not output. -/
def Obligations.TwosComplementIsOnesPlusOne : Prop :=
  ∀ (x : Nibble) (s : State), ∃ (n t : Nibble) (k : Bit),
    exec (.ones x) s = .next { s with reply := .outputs (.complement n) } ∧
    exec (.add4 n ⟨false, false, false, true⟩ false) s = .next { s with reply := .outputs (.adder t k) } ∧
    exec (.twos x) s = .next { s with reply := .outputs (.complement t) } ∧
    carryFlag (.complement t) = none ∧ (k = true ↔ x = ⟨false, false, false, false⟩)

/-- spec/42_complement.md R602: the additive inverse modulo 16, an involution with fixed points 0000 and 1000 alone, the
negation of the signed value but at 1000. -/
def Obligations.TwosComplementNegatesModulo16 : Prop :=
  ∀ (x : Nibble) (s : State), ∃ y : Nibble,
    exec (.twos x) s = .next { s with reply := .outputs (.complement y) } ∧
    uval y = (16 - uval x) % 16 ∧
    exec (.twos y) s = .next { s with reply := .outputs (.complement x) } ∧
    (y = x ↔ x = ⟨false, false, false, false⟩ ∨ x = ⟨true, false, false, false⟩) ∧
    (x ≠ ⟨true, false, false, false⟩ → sval y = -sval x) ∧
    (x = ⟨true, false, false, false⟩ → sval y = -8)

/-- spec/42_complement.md R602: x + TWOS(x) is 0000 for every x; its carry is 0 at 0000 and 1 elsewhere. -/
def Obligations.AddingTheTwosComplementGivesZero : Prop :=
  ∀ (x : Nibble) (s : State), ∃ (y : Nibble) (k : Bit),
    exec (.twos x) s = .next { s with reply := .outputs (.complement y) } ∧
    exec (.add4 x y false) s = .next { s with reply := .outputs (.adder ⟨false, false, false, false⟩ k) } ∧
    (k = true ↔ x ≠ ⟨false, false, false, false⟩)

/-! ## Adder/subtractor -/

/-- spec/43_addsub.md R701, R703, R705: the sum modulo 16, the same as ADD4 with carry-in 0, commutative; the carry is
unsigned overflow and the true sum is then 16 + r. -/
def Obligations.AddGivesTheSumModulo16 : Prop :=
  ∀ (a b : Nibble) (s : State), ∃ (r : Nibble) (c : Bit),
    exec (.add a b) s = .next { s with reply := .outputs (.addSub r c) } ∧
    exec (.add4 a b false) s = .next { s with reply := .outputs (.adder r c) } ∧
    exec (.add b a) s = .next { s with reply := .outputs (.addSub r c) } ∧
    uval r = (uval a + uval b) % 16 ∧
    (c = true ↔ 15 < uval a + uval b) ∧
    (c = true → uval a + uval b = 16 + uval r)

/-- spec/43_addsub.md R702: ADD4 of a and TWOS(b) with carry-in 0. -/
def Obligations.SubAddsTheTwosComplement : Prop :=
  ∀ (a b : Nibble) (s : State), ∃ (t r : Nibble) (c : Bit),
    exec (.twos b) s = .next { s with reply := .outputs (.complement t) } ∧
    exec (.add4 a t false) s = .next { s with reply := .outputs (.adder r c) } ∧
    exec (.sub a b) s = .next { s with reply := .outputs (.addSub r c) }

/-- spec/43_addsub.md R704, R705: the difference modulo 16; carry 1 is "no borrow" for b other than 0000; for b = 0000
the carry is 0 and the result is a. -/
def Obligations.SubGivesTheDifferenceAndItsCarry : Prop :=
  ∀ (a b : Nibble) (s : State), ∃ (r : Nibble) (c : Bit),
    exec (.sub a b) s = .next { s with reply := .outputs (.addSub r c) } ∧
    (uval r : Int) = ((uval a : Int) - (uval b : Int)) % 16 ∧
    (uval b ≠ 0 → (c = true ↔ uval b ≤ uval a)) ∧
    (uval b ≠ 0 → c = false → r = nib (16 + uval a - uval b)) ∧
    (uval b ≠ 0 → (uval a : Int) - uval b = uval r - 16 * (1 - (bval c : Int))) ∧
    (uval b = 0 → c = false ∧ r = a)

/-- spec/43_addsub.md R702 corner cases; spec/90_conflicts.md C2: a - a is 0000, with carry 1 but at a = 0000. -/
def Obligations.SelfSubtractionGivesZero : Prop :=
  ∀ (a : Nibble) (s : State), ∃ c : Bit,
    exec (.sub a a) s = .next { s with reply := .outputs (.addSub ⟨false, false, false, false⟩ c) } ∧
    (c = true ↔ a ≠ ⟨false, false, false, false⟩)

/-- spec/30_encoding.md R302: of the calls of `add_subtract`, op = 0 adds and op = 1 subtracts, modulo 16. -/
def Obligations.SelectorDenotesAdditionAndSubtraction : Prop :=
  ∀ (x y : Nibble) (later : List Call) (old : Reply),
    (∃ (r : Nibble) (c : Bit),
      step ⟨(), .entry (.addSubtract (nibbleValues x) (nibbleValues y) 0) :: later, old⟩ =
        .next ⟨(), later, .outputs (.addSub r c)⟩ ∧
      (uval r : Int) = ((uval x : Int) + (uval y : Int)) % 16) ∧
    (∃ (r : Nibble) (c : Bit),
      step ⟨(), .entry (.addSubtract (nibbleValues x) (nibbleValues y) 1) :: later, old⟩ =
        .next ⟨(), later, .outputs (.addSub r c)⟩ ∧
      (uval r : Int) = ((uval x : Int) - (uval y : Int)) % 16)

/-! ## Interpreter and assembled block -/

/-- spec/44_interpret.md R800 to R802: the value of each path, its range, and its five-bit port form, never 10000. -/
def Obligations.InterpreterFollowsThePaths : Prop :=
  ∀ (r : Nibble) (isSub c : Bit) (s : State), ∃ v : Int,
    exec (.toSigned r isSub c) s = .next { s with reply := .outputs (.interpreter v) } ∧
    (isSub = false ∨ c = true → v = (uval r : Int)) ∧
    (isSub = true ∧ c = false → v = -(((16 - uval r) % 16 : Nat) : Int)) ∧
    -15 ≤ v ∧ v ≤ 15 ∧ portValue (portV v) = v ∧ portV v ≠ 0b10000#5

/-- spec/10_state.md R110: the wiring of the assembled block. The interpreter's `s` is OP by the spec's decision D16. -/
def Obligations.AssembledBlockIsWiredAsStated : Prop :=
  ∀ (A B : Nibble) (OP : Bit) (later : List Call) (old : Reply), ∃ (R : Nibble) (C : Bit) (V : Int),
    exec (if OP = true then .sub A B else .add A B) ⟨(), later, old⟩ = .next ⟨(), later, .outputs (.addSub R C)⟩ ∧
    exec (.toSigned R OP C) ⟨(), later, old⟩ = .next ⟨(), later, .outputs (.interpreter V)⟩ ∧
    step ⟨(), .topLevel A B OP :: later, old⟩ = .next ⟨(), later, .outputs (.topLevel R C V)⟩

/-- spec/44_interpret.md R803; spec/90_conflicts.md C3: V is the sum modulo 16, or the exact difference but for a
subtrahend of 0000, where it is a - 16, and 0 when a is 0000 too. V rests on the wiring of the assembled block
(spec/10_state.md R110), in which the interpreter's `s` is OP by the spec's decision D16 (log entry 11). -/
def Obligations.AssembledBlockGivesTheArithmetic : Prop :=
  ∀ (A B : Nibble) (later : List Call) (old : Reply),
    (∃ (R : Nibble) (C : Bit),
      step ⟨(), .topLevel A B false :: later, old⟩ =
        .next ⟨(), later, .outputs (.topLevel R C (((uval A + uval B) % 16 : Nat) : Int))⟩) ∧
    (∃ (R : Nibble) (C : Bit) (V : Int),
      step ⟨(), .topLevel A B true :: later, old⟩ = .next ⟨(), later, .outputs (.topLevel R C V)⟩ ∧
      (uval B ≠ 0 → V = (uval A : Int) - uval B) ∧
      (uval B = 0 → uval A ≠ 0 → V = (uval A : Int) - 16) ∧
      (uval B = 0 → uval A = 0 → V = 0))

/-! ## Every evaluation -/

/-- spec/10_state.md R111: the outputs of an instruction depend on its inputs alone. -/
def Obligations.OutputsDependOnInputsAlone : Prop :=
  ∀ i : Instr, ∃ o : Outputs, ∀ s : State, exec i s = .next { s with reply := .outputs o }

/-- spec/20_memory.md R207: an evaluation changes nothing but what it returns, and repeated gives the same. -/
def Obligations.EvaluationsHaveNoSideEffect : Prop :=
  ∀ (i : Instr) (s : State), ∃ t : State,
    exec i s = .next t ∧ t.calls = s.calls ∧ exec i t = .next t

/-- spec/20_memory.md R208: two evaluations made in either order return the same to their callers. -/
def Obligations.EvaluationsCommute : Prop :=
  ∀ (i j : Instr) (s : State), ∃ si sj sij sji : State,
    exec i s = .next si ∧ exec j s = .next sj ∧ exec j si = .next sij ∧ exec i sj = .next sji ∧
    sij.reply = sj.reply ∧ sji.reply = si.reply

/-- spec/10_state.md R107, R108: which evaluations output a carry, and that no other flag is output: the outputs of
every operation are its result and, of HA, FA, ADD4, ADD and SUB, that carry. -/
def Obligations.CarryComesFromTheAddersAlone : Prop :=
  ∀ (i : Instr) (s : State), ∃ o : Outputs,
    exec i s = .next { s with reply := .outputs o } ∧
    ((carryFlag o).isSome = true ↔ i.fn ∈ [Fn.ha, .fa, .add4, .add, .sub]) ∧
    (i.fn ∈ [Fn.and, .or, .not, .xor, .nand] → ∃ y, o = .gate y) ∧
    (i.fn = .ha → ∃ sum carry, o = .halfAdder sum carry ∧ carryFlag o = some carry) ∧
    (i.fn = .fa → ∃ sum cout, o = .fullAdder sum cout ∧ carryFlag o = some cout) ∧
    (i.fn = .add4 → ∃ r cout, o = .adder r cout ∧ carryFlag o = some cout) ∧
    (i.fn ∈ [Fn.ones, .twos] → ∃ y, o = .complement y) ∧
    (i.fn ∈ [Fn.add, .sub] → ∃ r c, o = .addSub r c ∧ carryFlag o = some c) ∧
    (i.fn = .toSigned → ∃ v, o = .interpreter v)

/-- spec/10_state.md R111; spec/60_exceptions.md R909: no evaluation depends on what an earlier one returned, an error
among them. -/
def Obligations.StepIgnoresTheLastReply : Prop :=
  ∀ (calls : List Call) (r r' : Reply), step ⟨(), calls, r⟩ = step ⟨(), calls, r'⟩

/-- spec/10_state.md R101: a step is one evaluation: it takes one call, or the one word that the decoder reads off a
stretch of words, at least five Bits wide (spec/30_encoding.md section 3, R310, R311), and leaves what comes after as it
was. That the Bits after a word stay to be driven is the model's choice (log entry 5). -/
def Obligations.StepTakesOneCall : Prop :=
  ∀ s t : State, step s = .next t →
    ∃ (c : Call) (later : List Call), s.calls = c :: later ∧
      (((∀ bits, c ≠ .words bits) ∧ t.calls = later) ∨
        ∃ (bits left : Bits) (i : Instr), c = .words bits ∧ decode bits = .ok (i, left) ∧
          bits = encode i ++ left ∧ left.length + 5 ≤ bits.length ∧
          t.calls = if left = [] then later else .words left :: later)

/-! ## Words -/

/-- spec/30_encoding.md R309 to R311 (the spec's own encoding, D4): the word of an instruction decodes to it, whatever
follows the word. -/
def Obligations.DecodeInvertsEncode : Prop :=
  ∀ (i : Instr) (rest : Bits), decode (encode i ++ rest) = .ok (i, rest)

/-- spec/30_encoding.md R311 (D4): what decodes to an instruction is that instruction's word and what follows it. -/
def Obligations.EncodeInvertsDecode : Prop :=
  ∀ (bits rest : Bits) (i : Instr), decode bits = .ok (i, rest) → bits = encode i ++ rest

/-- spec/30_encoding.md R310 to R312 (D4): Bits decode exactly when their first four are an assigned FN and they are at
least as many as its format has. -/
def Obligations.DecodeAcceptsExactlyTheFormats : Prop :=
  ∀ bits : Bits,
    (∃ (i : Instr) (rest : Bits), decode bits = .ok (i, rest)) ↔
      ∃ (f3 f2 f1 f0 : Bit) (fields : Bits) (fn : Fn),
        bits = f3 :: f2 :: f1 :: f0 :: fields ∧ fnOf f3 f2 f1 f0 = some fn ∧ fn.format.width ≤ bits.length

/-- spec/95_test_vectors.md section 2.9: the thirteen words, one of every operation, spelled in the codes of
spec/30_encoding.md R309 (the spec's own encoding, D4); and FN[0] is the Operation Selector for ADD and SUB. -/
def Obligations.SampleWordsDecode : Prop :=
  decode [false, false, false, false, true, true] = .ok (.and true true, []) ∧
  decode [false, false, false, true, false, true] = .ok (.or false true, []) ∧
  decode [false, false, true, false, false] = .ok (.not false, []) ∧
  decode [false, false, true, true, true, false] = .ok (.xor true false, []) ∧
  decode [false, true, false, false, true, true] = .ok (.nand true true, []) ∧
  decode [false, true, false, true, true, true] = .ok (.ha true true, []) ∧
  decode [false, true, true, false, true, true, true] = .ok (.fa true true true, []) ∧
  decode [false, true, true, true, false, true, false, true, false, false, true, true, false] =
    .ok (.add4 ⟨false, true, false, true⟩ ⟨false, false, true, true⟩ false, []) ∧
  decode [true, false, false, false, false, true, false, true] = .ok (.ones ⟨false, true, false, true⟩, []) ∧
  decode [true, false, false, true, false, true, false, true] = .ok (.twos ⟨false, true, false, true⟩, []) ∧
  decode [true, false, true, false, false, true, false, true, false, false, true, true] =
    .ok (.add ⟨false, true, false, true⟩ ⟨false, false, true, true⟩, []) ∧
  decode [true, false, true, true, false, true, true, true, false, false, true, false] =
    .ok (.sub ⟨false, true, true, true⟩ ⟨false, false, true, false⟩, []) ∧
  decode [true, true, false, false, true, false, true, true, true, false] =
    .ok (.toSigned ⟨true, false, true, true⟩ true false, []) ∧
  Fn.add.code.getLast? = some false ∧ Fn.sub.code.getLast? = some true

/-- spec/30_encoding.md R312; spec/60_exceptions.md R907 (D4): a word with a reserved FN is refused. -/
def Obligations.ReservedCodesAreRefused : Prop :=
  ∀ (f1 f0 : Bit) (fields : Bits) (later : List Call) (old : Reply), f1 = true ∨ f0 = true →
    step ⟨(), .words (true :: true :: f1 :: f0 :: fields) :: later, old⟩ = .refused (.reservedFn true true f1 f0)

/-- A step on words runs the first instruction the decoder reads, and the Bits after its word stay to be driven (the
model's choice, log entry 5). -/
def Obligations.StepRunsTheDecodedInstruction : Prop :=
  ∀ (bits left : Bits) (i : Instr) (later : List Call) (old : Reply), decode bits = .ok (i, left) →
    step ⟨(), .words bits :: later, old⟩ =
      exec i ⟨(), if left = [] then later else .words left :: later, old⟩

/-- Instructions' words driven one after another run one a step, each to its end, and the last one's outputs are
returned (spec/30_encoding.md R311; spec/95_test_vectors.md section 3; log entry 5). -/
def Obligations.WordProgramsRunToTheEnd : Prop :=
  ∀ (program : List Instr) (last : Instr) (later : List Call) (old : Reply), ∃ o : Outputs,
    exec last ⟨(), later, old⟩ = .next ⟨(), later, .outputs o⟩ ∧
    Host.Core.run Sys2Proof.core (program.length + 1) (⟨(), .words ((program ++ [last]).flatMap encode) :: later, old⟩ : State) =
      .next (⟨(), later, .outputs o⟩ : State)

/-- Every instruction has a number that spells its word at its own width, and a step after that word is placed runs it
(log entries 2 and 7). -/
def Obligations.PlacedWordsRunAsTheFirstInstruction : Prop :=
  ∀ (i : Instr) (s : State), ∃ w : Nat,
    w < 2 ^ i.fn.format.width ∧ bitsOfNat w i.fn.format.width = encode i ∧
    decodeTableWord i.fn.format.width w = some i ∧
    step (s.withFetchWord i.fn.format.width w) = exec i s

/-! ## Software calls -/

/-- spec/30_encoding.md R315, section 2: the software call of an instruction evaluates it. -/
def Obligations.EntryCallsRunTheirInstruction : Prop :=
  ∀ (i : Instr) (later : List Call) (old : Reply), step ⟨(), .entry (entryOf i) :: later, old⟩ = exec i ⟨(), later, old⟩

/-- spec/30_encoding.md R304, the whole of decode_nibble. The payload, argument with length or index, is the spec's
decision D6 (log entry 11). -/
def Obligations.NibbleArgumentsAreDecoded : Prop :=
  ∀ (argument : ArgName) (vs : List Value),
    (vs.length ≠ 4 → decodeNibble argument vs = .error (.invalidLength argument vs.length)) ∧
    (∀ k : Fin 4, vs.length = 4 → FirstNonBit vs k → decodeNibble argument vs = .error (.invalidBit argument (some k))) ∧
    (vs.length = 4 → (∀ v ∈ vs, v = 0 ∨ v = 1) →
      ∃ x : Nibble, decodeNibble argument vs = .ok x ∧ ∀ i : Fin 4, vs[i.val]? = some (bitValue (position x (3 - i))))

/-- spec/60_exceptions.md R901, R903: the calls of `twos_complement` and `ones_complement`. That ONES checks is the
spec's decision D7, and the order D5. -/
def Obligations.ComplementCallsCheckTheirArgument : Prop :=
  ∀ (vs : List Value) (later : List Call) (old : Reply),
    (vs.length ≠ 4 →
      step ⟨(), .entry (.twosComplement vs) :: later, old⟩ = .next ⟨(), later, .error (.invalidLength .x vs.length)⟩ ∧
      step ⟨(), .entry (.onesComplement vs) :: later, old⟩ = .next ⟨(), later, .error (.invalidLength .x vs.length)⟩) ∧
    (∀ k : Fin 4, vs.length = 4 → FirstNonBit vs k →
      step ⟨(), .entry (.twosComplement vs) :: later, old⟩ = .next ⟨(), later, .error (.invalidBit .x (some k))⟩ ∧
      step ⟨(), .entry (.onesComplement vs) :: later, old⟩ = .next ⟨(), later, .error (.invalidBit .x (some k))⟩)

/-- spec/30_encoding.md R305: the carry-in of `add4`, with Nibbles for its other arguments. The payload (cin, none) is the
spec's decision D6 (log entry 11). -/
def Obligations.CarryInArgumentIsDecoded : Prop :=
  ∀ (x y : Nibble) (later : List Call) (old : Reply),
    step ⟨(), .entry (.add4 (nibbleValues x) (nibbleValues y) none) :: later, old⟩ = exec (.add4 x y false) ⟨(), later, old⟩ ∧
    step ⟨(), .entry (.add4 (nibbleValues x) (nibbleValues y) (some 0)) :: later, old⟩ = exec (.add4 x y false) ⟨(), later, old⟩ ∧
    step ⟨(), .entry (.add4 (nibbleValues x) (nibbleValues y) (some 1)) :: later, old⟩ = exec (.add4 x y true) ⟨(), later, old⟩ ∧
    ∀ v : Value, v ≠ 0 → v ≠ 1 →
      step ⟨(), .entry (.add4 (nibbleValues x) (nibbleValues y) (some v)) :: later, old⟩ =
        .next ⟨(), later, .error (.invalidBit .cin none)⟩

/-- spec/30_encoding.md R306: the selector of `add_subtract`, with Nibbles for its other arguments; ill-typed ones beside it
are AddSubtractReportsTheFirstFailure's. The payload, the value found, is the spec's decision D6 (log entry 11). -/
def Obligations.OperationSelectorIsDecoded : Prop :=
  ∀ (x y : Nibble) (later : List Call) (old : Reply),
    step ⟨(), .entry (.addSubtract (nibbleValues x) (nibbleValues y) 0) :: later, old⟩ = exec (.add x y) ⟨(), later, old⟩ ∧
    step ⟨(), .entry (.addSubtract (nibbleValues x) (nibbleValues y) 1) :: later, old⟩ = exec (.sub x y) ⟨(), later, old⟩ ∧
    ∀ v : Value, v ≠ 0 → v ≠ 1 →
      step ⟨(), .entry (.addSubtract (nibbleValues x) (nibbleValues y) v) :: later, old⟩ =
        .next ⟨(), later, .error (.invalidOperation v)⟩

/-- spec/60_exceptions.md R903 (the order is the spec's decision D5): the first failing check of `add_subtract`. -/
def Obligations.AddSubtractReportsTheFirstFailure : Prop :=
  ∀ (a b : List Value) (op : Value) (later : List Call) (old : Reply),
    (op ≠ 0 ∧ op ≠ 1 →
      step ⟨(), .entry (.addSubtract a b op) :: later, old⟩ = .next ⟨(), later, .error (.invalidOperation op)⟩) ∧
    (op = 0 ∨ op = 1 →
      (a.length ≠ 4 →
        step ⟨(), .entry (.addSubtract a b op) :: later, old⟩ = .next ⟨(), later, .error (.invalidLength .a a.length)⟩) ∧
      (a.length = 4 → b.length ≠ 4 →
        step ⟨(), .entry (.addSubtract a b op) :: later, old⟩ = .next ⟨(), later, .error (.invalidLength .b b.length)⟩) ∧
      (∀ k : Fin 4, a.length = 4 → b.length = 4 → FirstNonBit a k →
        step ⟨(), .entry (.addSubtract a b op) :: later, old⟩ = .next ⟨(), later, .error (.invalidBit .a (some k))⟩) ∧
      (∀ k : Fin 4, b.length = 4 → Value.isNibble a = true → FirstNonBit b k →
        step ⟨(), .entry (.addSubtract a b op) :: later, old⟩ = .next ⟨(), later, .error (.invalidBit .b (some k))⟩))

/-- spec/60_exceptions.md R903 (the order is the spec's decision D5): the first failing check of `add4`. -/
def Obligations.RippleAdderCallReportsTheFirstFailure : Prop :=
  ∀ (a b : List Value) (cin : Option Value) (later : List Call) (old : Reply),
    (a.length ≠ 4 →
      step ⟨(), .entry (.add4 a b cin) :: later, old⟩ = .next ⟨(), later, .error (.invalidLength .a a.length)⟩) ∧
    (a.length = 4 → b.length ≠ 4 →
      step ⟨(), .entry (.add4 a b cin) :: later, old⟩ = .next ⟨(), later, .error (.invalidLength .b b.length)⟩) ∧
    (∀ k : Fin 4, a.length = 4 → b.length = 4 → FirstNonBit a k →
      step ⟨(), .entry (.add4 a b cin) :: later, old⟩ = .next ⟨(), later, .error (.invalidBit .a (some k))⟩) ∧
    (∀ k : Fin 4, b.length = 4 → Value.isNibble a = true → FirstNonBit b k →
      step ⟨(), .entry (.add4 a b cin) :: later, old⟩ = .next ⟨(), later, .error (.invalidBit .b (some k))⟩) ∧
    (∀ v : Value, Value.isNibble a = true → Value.isNibble b = true → cin = some v → v ≠ 0 → v ≠ 1 →
      step ⟨(), .entry (.add4 a b cin) :: later, old⟩ = .next ⟨(), later, .error (.invalidBit .cin none)⟩)

/-- spec/60_exceptions.md R902: a call of the 4-bit adder, the two's-complement unit or the adder/subtractor ends with
every output when it keeps the preconditions, and otherwise with exactly one error and no output. -/
def Obligations.CheckedCallsAreAllOrNothing : Prop :=
  ∀ (c : EntryCall) (later : List Call) (old : Reply),
    (∃ a b cin, c = .add4 a b cin) ∨ (∃ x, c = .twosComplement x) ∨ (∃ a b op, c = .addSubtract a b op) →
    (c.wellFormed = true → ∃ o : Outputs, step ⟨(), .entry c :: later, old⟩ = .next ⟨(), later, .outputs o⟩) ∧
    (c.wellFormed = false → ∃! e : BoundaryError, step ⟨(), .entry c :: later, old⟩ = .next ⟨(), later, .error e⟩)

/-- spec/60_exceptions.md R907 (decisions D8, D9): an ill-typed argument of a gate, an adder of Bits or the interpreter
is refused, and a well-typed call is evaluated. -/
def Obligations.UncheckedCallsAreEvaluatedOrRefused : Prop :=
  ∀ (c : EntryCall) (later : List Call) (old : Reply), c.checked = false →
    (c.wellFormed = true → ∃ o : Outputs, step ⟨(), .entry c :: later, old⟩ = .next ⟨(), later, .outputs o⟩) ∧
    (c.wellFormed = false → (∃ r s v, c = .toSignedValue r s v) →
      step ⟨(), .entry c :: later, old⟩ = .refused .interpreterArgument) ∧
    (c.wellFormed = false → (¬∃ r s v, c = .toSignedValue r s v) →
      step ⟨(), .entry c :: later, old⟩ = .refused .gateArgument)

/-- spec/60_exceptions.md R908: an error is returned and nothing else is changed or saved; R909: the evaluation after it is
as if it had not happened. That an error is a next state, from which a run goes on, is log entry 3. -/
def Obligations.ErrorsLeaveNothingBehind : Prop :=
  ∀ (c : EntryCall) (later : List Call) (old : Reply) (e : BoundaryError), decodeEntry c = .error e →
    step ⟨(), .entry c :: later, old⟩ = .next ⟨(), later, .error e⟩ ∧ step ⟨(), later, .error e⟩ = step ⟨(), later, old⟩

/-- Calls that are checked or well-formed, lines and calls of the assembled block run to the end, one a step, whatever
errors are reported on the way (spec/60_exceptions.md R902, R905 in section 1, R909 in section 2). That an error is a next
state, from which a run goes on, is log entry 3. -/
def Obligations.CallProgramsRunToTheEnd : Prop :=
  ∀ (calls : List Call) (old : Reply), (∀ c ∈ calls, Answered c) →
    ∃ r : Reply,
      Host.Core.run Sys2Proof.core calls.length (⟨(), calls, old⟩ : State) = .next (⟨(), [], r⟩ : State) ∧
      (calls ≠ [] → r ≠ .nothing)

/-! ## Lines -/

/-- spec/30_encoding.md R314 (the line form is the spec's own, D15): a line's text, with any comment after its arrow,
reads back as the line. -/
def Obligations.LineTextsReadBack : Prop :=
  ∀ (l : Line) (comment : List Char),
    readLine (lineText l) = some l ∧ readLine (withComment (lineText l) comment) = some l

/-- spec/30_encoding.md R315 (D15): what the pseudo forms expand to, and that a line is evaluated, and its text assembled
(R314), as its expansion. -/
def Obligations.LinesRunTheirExpansion : Prop :=
  (∀ (i : Instr), (Line.core i).expand = i) ∧
  (∀ (a b : Nibble), (Line.add4Default a b).expand = .add4 a b false) ∧
  (∀ (x : Nibble), (Line.neg x).expand = .twos x) ∧
  (∀ (a b : Nibble) (op : Bit), (Line.addsub a b op).expand = if op = true then .sub a b else .add a b) ∧
  (∀ (l : Line) (later : List Call) (old : Reply), step ⟨(), .line l :: later, old⟩ = exec l.expand ⟨(), later, old⟩) ∧
  (∀ l : Line, assemble (lineText l) = some (encode l.expand))

/-! ## Circuits -/

/-- spec/41_adders.md R505, R506: the gate circuits of XOR, HA, FA and ADD4 have the stated counts, read driven wires
alone, and ADD4's gives what ADD4 gives. -/
def Obligations.RippleAdderCircuitHasTheStatedGates : Prop :=
  countGates (xorNetlist 2 0 1) = ⟨2, 2, 1⟩ ∧ countGates (haNetlist 2 0 1) = ⟨2, 3, 1⟩ ∧
  countGates (faNetlist 3 0 1 2) = ⟨4, 6, 3⟩ ∧ countGates (add4Netlist 9 ⟨0, 1, 2, 3⟩ ⟨4, 5, 6, 7⟩ 8) = ⟨16, 24, 12⟩ ∧
  (add4Netlist 9 ⟨0, 1, 2, 3⟩ ⟨4, 5, 6, 7⟩ 8).length = 52 ∧
  netlistWf 9 (add4Netlist 9 ⟨0, 1, 2, 3⟩ ⟨4, 5, 6, 7⟩ 8) = true ∧
  ∀ (a b : Nibble) (cin : Bit) (s : State),
    exec (.add4 a b cin) s = .next { s with reply := .outputs (.adder
      (nibbleOn (evalNetlist (add4Netlist 9 ⟨0, 1, 2, 3⟩ ⟨4, 5, 6, 7⟩ 8) (a.bits ++ b.bits ++ [cin])) (add4Result 9))
      (wireValue (evalNetlist (add4Netlist 9 ⟨0, 1, 2, 3⟩ ⟨4, 5, 6, 7⟩ 8) (a.bits ++ b.bits ++ [cin])) 60)) }

/-- spec/43_addsub.md R700, R706: the circuit of gates alone, with the reference gate form of the mux and the constants 0
and 1 on wires 9 and 10, gives what the adder/subtractor gives for either operation. -/
def Obligations.AdderSubtractorCircuitAgreesWithIt : Prop :=
  netlistWf 11 (addSubNetlist 11 ⟨0, 1, 2, 3⟩ ⟨4, 5, 6, 7⟩ 8 9 10) = true ∧
  ∀ (a b : Nibble) (op : Bit) (s : State), ∃ ws : Bits,
    ws = evalNetlist (addSubNetlist 11 ⟨0, 1, 2, 3⟩ ⟨4, 5, 6, 7⟩ 8 9 10) (a.bits ++ b.bits ++ [op, false, true]) ∧
    exec (if op = true then .sub a b else .add a b) s =
      .next { s with reply := .outputs (.addSub (nibbleOn ws (add4Result 80)) (wireValue ws 131)) }

/-! ## Readings -/

/-- spec/00_scope.md R14: uval is the weighted sum, in 0..15, and nib(v) the unique Nibble of value v. -/
def Obligations.UnsignedReadingIsOneToOne : Prop :=
  (∀ x : Nibble,
    uval x = 8 * bval (position x 3) + 4 * bval (position x 2) + 2 * bval (position x 1) + bval (position x 0) ∧
    uval x = 8 * bval x.n0 + 4 * bval x.n1 + 2 * bval x.n2 + bval x.n3 ∧ uval x ≤ 15) ∧
  ∀ v : Nat, v ≤ 15 → uval (nib v) = v ∧ ∀ y : Nibble, uval y = v → y = nib v

/-- spec/30_encoding.md R301: -m, 1 ≤ m ≤ 8, is encoded as nib((16 - m) mod 16), that is, that Nibble alone has signed
value -m; -5 is 1011. -/
def Obligations.NegativeIntegersAreEncodedModulo16 : Prop :=
  (∀ m : Nat, 1 ≤ m → m ≤ 8 → ∀ x : Nibble, sval x = -(m : Int) ↔ x = nib ((16 - m) % 16)) ∧
  nib 11 = ⟨true, false, true, true⟩ ∧ sval ⟨true, false, true, true⟩ = -5

/-! ## Reset and the invariant -/

/-- spec/70_reset_and_hazards.md R1000, read by the model (log entry 2): nothing is listed and nothing was returned, and
with nothing driven there is no evaluation to make (log entry 4). -/
def Obligations.ResetDrivesNothing : Prop :=
  State.reset.calls = [] ∧ State.reset.reply = .nothing ∧ step State.reset = .refused .nothingDriven

/-- The invariant holds at reset. -/
def Obligations.ResetIsLegal : Prop := State.reset.Inv

/-- Every step keeps the invariant: whatever is driven, the interpreter's integer stays in -15..15 (spec/44_interpret.md
R801), a half adder never gives 1, 1, and of the errors (spec/60_exceptions.md R900, R904; payloads: the spec's decision
D6, log entry 11) InvalidLength names a, b or x with a length other than 4, InvalidBit has an index exactly for a Nibble
argument, and InvalidOperation has a value other than 0 and 1. That the index is the first bad element's is said by
NibbleArgumentsAreDecoded, ComplementCallsCheckTheirArgument, AddSubtractReportsTheFirstFailure and
RippleAdderCallReportsTheFirstFailure. -/
def Obligations.StepKeepsRepliesLegal : Prop :=
  ∀ s t : State, s.Inv → step s = .next t → t.Inv

/-! ## The core's own state -/

/-- spec/10_state.md R100, R111: the core's state has one value, and no evaluation leaves anything behind for a later one:
a call gives one reply, or one refusal, whatever the state it is made in. What a stretch of words leaves to be driven
(log entry 5) and the calls after it are the caller's (log entry 1). -/
def Obligations.NoEvaluationRemembersAnother : Prop :=
  (∀ k k' : CoreState, k = k') ∧
  ∀ c : Call,
    (∃ (left : List Call) (reply : Reply), ∀ (k : CoreState) (later : List Call) (old : Reply),
      step ⟨k, c :: later, old⟩ = .next ⟨k, left ++ later, reply⟩) ∨
    ∃ reason : Refusal, ∀ (k : CoreState) (later : List Call) (old : Reply),
      step ⟨k, c :: later, old⟩ = .refused reason
end

