-- ==== Sys2Proof/Laws/State.lean ====
section
/-! SUPPORT. The fields of State after each update. -/

namespace Sys2Proof.Machine

@[simp] theorem State.withCalls_core (s : State) (cs : List Call) : (s.withCalls cs).core = s.core := rfl
@[simp] theorem State.withCalls_calls (s : State) (cs : List Call) : (s.withCalls cs).calls = cs := rfl
@[simp] theorem State.withCalls_reply (s : State) (cs : List Call) : (s.withCalls cs).reply = s.reply := rfl
@[simp] theorem State.answer_core (s : State) (o : Outputs) : (s.answer o).core = s.core := rfl
@[simp] theorem State.answer_calls (s : State) (o : Outputs) : (s.answer o).calls = s.calls := rfl
@[simp] theorem State.answer_reply (s : State) (o : Outputs) : (s.answer o).reply = .outputs o := rfl
@[simp] theorem State.fail_core (s : State) (e : BoundaryError) : (s.fail e).core = s.core := rfl
@[simp] theorem State.fail_calls (s : State) (e : BoundaryError) : (s.fail e).calls = s.calls := rfl
@[simp] theorem State.fail_reply (s : State) (e : BoundaryError) : (s.fail e).reply = .error e := rfl
@[simp] theorem State.reset_core : State.reset.core = () := rfl
@[simp] theorem State.reset_calls : State.reset.calls = [] := rfl
@[simp] theorem State.reset_reply : State.reset.reply = .nothing := rfl

/-- Everything `deliver` can do. -/
theorem deliver_eq_next (o : Outputs) (s : State) : deliver o s = .next { s with reply := .outputs o } := rfl

/-- Everything `raise` can do. -/
theorem raise_eq_next (e : BoundaryError) (s : State) : raise e s = .next { s with reply := .error e } := rfl

end Sys2Proof.Machine
end

