-- ==== Sys2Proof/Laws/Boundary.lean ====
section
/-! SUPPORT. What the boundary decoder makes of an argument. -/

namespace Sys2Proof.Machine

/-- Everything `bitOf` can answer. -/
theorem bitOf_eq_some {v : Value} {b : Bit} (h : bitOf v = some b) : v = (bval b : Int) := by
  unfold bitOf at h
  split at h
  · cases h; assumption
  · split at h
    · cases h; assumption
    · cases h

theorem bitOf_eq_none {v : Value} : bitOf v = none ↔ v ≠ 0 ∧ v ≠ 1 := by
  unfold bitOf
  split
  · simp_all
  · split <;> simp_all

theorem bitOf_bval (b : Bit) : bitOf (bval b : Int) = some b := by cases b <;> rfl

theorem isBit_iff {v : Value} : Value.isBit v = true ↔ v = 0 ∨ v = 1 := by
  unfold Value.isBit
  rw [Bool.or_eq_true, decide_eq_true_iff, decide_eq_true_iff]

theorem isBit_iff_bitOf {v : Value} : Value.isBit v = true ↔ ∃ b, bitOf v = some b := by
  rw [isBit_iff]
  constructor
  · rintro (rfl | rfl)
    · exact ⟨false, rfl⟩
    · exact ⟨true, rfl⟩
  · rintro ⟨b, h⟩
    rw [bitOf_eq_some h]
    cases b
    · exact .inl rfl
    · exact .inr rfl

theorem isNibble_iff {vs : List Value} : Value.isNibble vs = true ↔ vs.length = 4 ∧ ∀ v ∈ vs, v = 0 ∨ v = 1 := by
  unfold Value.isNibble Config.nibbleWidth
  rw [Bool.and_eq_true, decide_eq_true_iff, List.all_eq_true]
  exact and_congr_right fun _ => forall₂_congr fun _ _ => isBit_iff

/-! What an error of each check is. -/

theorem decodeBit_error {n v e} (h : decodeBit n v = .error e) : e = .invalidBit n none := by
  unfold decodeBit at h; split at h <;> cases h; rfl

theorem decodeElement_error {n k v e} (h : decodeElement n k v = .error e) : e = .invalidBit n (some k) := by
  unfold decodeElement at h; split at h <;> cases h; rfl

theorem checkLength_error {n v e} (h : checkLength n v = .error e) : ∃ l, l ≠ 4 ∧ e = .invalidLength n l := by
  unfold checkLength at h; split at h <;> cases h; exact ⟨_, by assumption, rfl⟩

theorem checkLength_ok {n v u} (h : checkLength n v = .ok u) : v.length = 4 := by
  unfold checkLength at h; split at h <;> cases h; assumption

/-- A checked call is never refused, and an unchecked one never an error. -/
theorem ofExcept_ne_refuse (x : Except BoundaryError Instr) (r : Refusal) : Admission.ofExcept x ≠ .refuse r := by
  cases x <;> simp [Admission.ofExcept]

theorem ofOption_ne_error (r : Refusal) (x : Option Instr) (e : BoundaryError) : Admission.ofOption r x ≠ .error e := by
  cases x <;> simp [Admission.ofOption]

end Sys2Proof.Machine
end

