-- ==== Sys2Proof/Laws/Components.lean ====
section
/-! SUPPORT. What each component computes, as arithmetic or as a native Boolean: the laws that spec/40_gates.md R405 and
spec/41_adders.md R505 ask to be proved and not taken as definitions. -/

namespace Sys2Proof.Machine

@[simp] theorem bval_false : bval false = 0 := rfl
@[simp] theorem bval_true : bval true = 1 := rfl

theorem bval_le_one (b : Bit) : bval b ≤ 1 := by cases b <;> simp

theorem bval_inj {a b : Bit} (h : bval a = bval b) : a = b := by cases a <;> cases b <;> simp_all

theorem andGate_eq_and (a b : Bit) : andGate a b = (a && b) := by cases a <;> cases b <;> rfl
theorem orGate_eq_or (a b : Bit) : orGate a b = (a || b) := by cases a <;> cases b <;> rfl
theorem notGate_eq_not (a : Bit) : notGate a = !a := by cases a <;> rfl
theorem xorGate_eq_xor (a b : Bit) : xorGate a b = (a ^^ b) := by cases a <;> cases b <;> rfl
theorem nandGate_eq_not_and (a b : Bit) : nandGate a b = !(a && b) := by cases a <;> cases b <;> rfl

/-- A half adder adds two Bits. -/
theorem halfAdder_sum (a b : Bit) : 2 * bval (halfAdder a b).2 + bval (halfAdder a b).1 = bval a + bval b := by
  cases a <;> cases b <;> rfl

/-- A full adder adds three Bits. -/
theorem fullAdder_sum (a b c : Bit) :
    2 * bval (fullAdder a b c).2 + bval (fullAdder a b c).1 = bval a + bval b + bval c := by
  cases a <;> cases b <;> cases c <;> rfl

theorem fullAdder_comm (a b c : Bit) : fullAdder a b c = fullAdder b a c := by
  cases a <;> cases b <;> cases c <;> rfl

theorem uval_le (x : Nibble) : uval x ≤ 15 := by
  have h0 := bval_le_one x.n0
  have h1 := bval_le_one x.n1
  have h2 := bval_le_one x.n2
  have h3 := bval_le_one x.n3
  unfold uval
  omega

/-- A Nibble is its unsigned value. -/
theorem uval_inj {x y : Nibble} (h : uval x = uval y) : x = y := by
  obtain ⟨a, b, c, d⟩ := x
  obtain ⟨a', b', c', d'⟩ := y
  have ha := bval_le_one a
  have hb := bval_le_one b
  have hc := bval_le_one c
  have hd := bval_le_one d
  have ha' := bval_le_one a'
  have hb' := bval_le_one b'
  have hc' := bval_le_one c'
  have hd' := bval_le_one d'
  simp only [uval] at h
  rw [bval_inj (show bval a = bval a' by omega), bval_inj (show bval b = bval b' by omega),
    bval_inj (show bval c = bval c' by omega), bval_inj (show bval d = bval d' by omega)]

/-- ADD4 is exact: its carry and result are the five-bit sum. Each position contributes its full adder's sum. -/
theorem add4_concat (a b : Nibble) (c : Bit) :
    concat (add4 a b c).2 (add4 a b c).1 = uval a + uval b + bval c := by
  have h0 := fullAdder_sum a.n3 b.n3 c
  have h1 := fullAdder_sum a.n2 b.n2 (fullAdder a.n3 b.n3 c).2
  have h2 := fullAdder_sum a.n1 b.n1 (fullAdder a.n2 b.n2 (fullAdder a.n3 b.n3 c).2).2
  have h3 := fullAdder_sum a.n0 b.n0 (fullAdder a.n1 b.n1 (fullAdder a.n2 b.n2 (fullAdder a.n3 b.n3 c).2).2).2
  simp only [concat, uval, add4]
  omega

theorem add4_comm (a b : Nibble) (c : Bit) : add4 a b c = add4 b a c := by
  simp only [add4, fullAdder_comm a.n3 b.n3, fullAdder_comm a.n2 b.n2, fullAdder_comm a.n1 b.n1,
    fullAdder_comm a.n0 b.n0]

theorem uval_onesComplement (x : Nibble) : uval (onesComplement x) + uval x = 15 := by
  obtain ⟨a, b, c, d⟩ := x
  cases a <;> cases b <;> cases c <;> cases d <;> rfl

end Sys2Proof.Machine
end

