-- ==== Sys2Proof/Laws/Decode.lean ====
section
/-! SUPPORT. What the decoder's readers answer. -/

namespace Sys2Proof

theorem readNibble_eq_some {b x r} (h : readNibble b = some (x, r)) : b = x.bits ++ r := by
  unfold readNibble at h; split at h <;> simp at h; obtain ⟨rfl, rfl⟩ := h; rfl

theorem readG1_eq_some {mk b i r} (h : readG1 mk b = some (i, r)) : ∃ a, i = mk a ∧ b = a :: r := by
  unfold readG1 at h; split at h <;> simp at h; obtain ⟨rfl, rfl⟩ := h; exact ⟨_, rfl, rfl⟩

theorem readG2_eq_some {mk b i r} (h : readG2 mk b = some (i, r)) : ∃ a c, i = mk a c ∧ b = a :: c :: r := by
  unfold readG2 at h; split at h <;> simp at h; obtain ⟨rfl, rfl⟩ := h; exact ⟨_, _, rfl, rfl⟩

theorem readG3_eq_some {mk b i r} (h : readG3 mk b = some (i, r)) : ∃ a c d, i = mk a c d ∧ b = a :: c :: d :: r := by
  unfold readG3 at h; split at h <;> simp at h; obtain ⟨rfl, rfl⟩ := h; exact ⟨_, _, _, rfl, rfl⟩

theorem readN1_eq_some {mk b i r} (h : readN1 mk b = some (i, r)) : ∃ a, i = mk a ∧ b = a.bits ++ r := by
  unfold readN1 at h; split at h <;> simp at h; obtain ⟨rfl, rfl⟩ := h; exact ⟨_, rfl, readNibble_eq_some ‹_›⟩

theorem readN2_eq_some {mk b i r} (h : readN2 mk b = some (i, r)) : ∃ a c, i = mk a c ∧ b = a.bits ++ c.bits ++ r := by
  unfold readN2 at h; split at h
  · rename_i hh; obtain ⟨c, rfl, rfl⟩ := readN1_eq_some h; exact ⟨_, _, rfl, by rw [readNibble_eq_some hh]; simp⟩
  · cases h

theorem readN2C_eq_some {mk b i r} (h : readN2C mk b = some (i, r)) : ∃ a c d, i = mk a c d ∧ b = a.bits ++ c.bits ++ [d] ++ r := by
  unfold readN2C at h; split at h
  · rename_i hh
    split at h
    · rename_i hh'
      obtain ⟨c, rfl, rfl⟩ := readG1_eq_some h; exact ⟨_, _, _, rfl, by rw [readNibble_eq_some hh, readNibble_eq_some hh']; simp⟩
    · cases h
  · cases h

theorem readI_eq_some {mk b i r} (h : readI mk b = some (i, r)) : ∃ a c d, i = mk a c d ∧ b = a.bits ++ [c, d] ++ r := by
  unfold readI at h; split at h
  · rename_i hh; obtain ⟨c, d, rfl, rfl⟩ := readG2_eq_some h; exact ⟨_, _, _, rfl, by rw [readNibble_eq_some hh]; simp⟩
  · cases h

/-- Everything the field readers can answer: an instruction of the operation, read from its fields. -/
theorem readFields_eq_some {fn b i r} (h : readFields fn b = some (i, r)) : i.fn = fn ∧ b = i.fields ++ r := by
  cases fn <;> simp only [readFields] at h <;> first
   | (obtain ⟨a, rfl, rfl⟩ := readG1_eq_some h; exact ⟨rfl, by simp [Instr.fields]⟩)
   | (obtain ⟨a, b, rfl, rfl⟩ := readG2_eq_some h; exact ⟨rfl, by simp [Instr.fields]⟩)
   | (obtain ⟨a, b, c, rfl, rfl⟩ := readG3_eq_some h; exact ⟨rfl, by simp [Instr.fields]⟩)
   | (obtain ⟨a, rfl, rfl⟩ := readN1_eq_some h; exact ⟨rfl, by simp [Instr.fields]⟩)
   | (obtain ⟨a, b, rfl, rfl⟩ := readN2_eq_some h; exact ⟨rfl, by simp [Instr.fields]⟩)
   | (obtain ⟨a, b, c, rfl, rfl⟩ := readN2C_eq_some h; exact ⟨rfl, by simp [Instr.fields]⟩)
   | (obtain ⟨a, b, c, rfl, rfl⟩ := readI_eq_some h; exact ⟨rfl, by simp [Instr.fields]⟩)

/-- A dispatch code is the code of the operation it names. -/
theorem code_of_fnOf {a b c d fn} (h : fnOf a b c d = some fn) : fn.code = [a,b,c,d] := by
  cases a <;> cases b <;> cases c <;> cases d <;> simp [fnOf] at h <;> subst h <;> rfl

/-- A word has its format's width. -/
theorem encode_length (i : Instr) : (encode i).length = i.fn.format.width := by cases i <;> rfl

end Sys2Proof
end

