-- ==== Sys2Proof/Laws/Netlist.lean ====
section
/-! SUPPORT. What the circuits of Machine/Netlist.lean drive, component by component. -/

namespace Sys2Proof.Machine

/-- A netlist in two parts is evaluated part after part. -/
theorem evalNetlist_append (g h : Netlist) (ws : Bits) : evalNetlist (g ++ h) ws = evalNetlist h (evalNetlist g ws) := by
  induction g generalizing ws with
  | nil => rfl
  | cons x g ih => exact ih _

/-- Wires keep their values when more are driven. -/
theorem wireValue_old {ws more : Bits} {i : Nat} (h : i < ws.length) : wireValue (ws ++ more) i = wireValue ws i := by
  simp only [wireValue]; rw [List.getD_append _ _ _ _ h]

/-- A new wire is read from the new values. -/
theorem wireValue_new (ws more : Bits) (k : Nat) : wireValue (ws ++ more) (ws.length + k) = wireValue more k := by
  simp only [wireValue]; rw [List.getD_append_right _ _ _ _ (Nat.le_add_right _ _), Nat.add_sub_cancel_left]

theorem wireValue_end (ws more : Bits) : wireValue (ws ++ more) ws.length = wireValue more 0 := wireValue_new ws more 0

/-- The half adder's circuit drives six wires, two of them the half adder's outputs. -/
theorem evalNetlist_haNetlist {ws : Bits} {n a b : Nat} (hn : ws.length = n) (ha : a < n) (hb : b < n) :
    ∃ more : Bits, evalNetlist (haNetlist n a b) ws = ws ++ more ∧ more.length = 6 ∧
      wireValue more 4 = (halfAdder (wireValue ws a) (wireValue ws b)).1 ∧
      wireValue more 5 = (halfAdder (wireValue ws a) (wireValue ws b)).2 := by
  subst hn
  refine Exists.intro ?_ ⟨?_, ?_⟩
  rotate_left
  · simp only [haNetlist, xorNetlist, List.cons_append, List.nil_append, evalNetlist, gateValue, List.append_assoc,
      wireValue_old ha, wireValue_old hb, wireValue_new, wireValue_end]
    rfl
  · exact ⟨rfl, rfl, rfl⟩

/-- The full adder's circuit drives thirteen wires, two of them the full adder's outputs. -/
theorem evalNetlist_faNetlist {ws : Bits} {n a b c : Nat} (hn : ws.length = n) (ha : a < n) (hb : b < n) (hc : c < n) :
    ∃ more : Bits, evalNetlist (faNetlist n a b c) ws = ws ++ more ∧ more.length = 13 ∧
      wireValue more 10 = (fullAdder (wireValue ws a) (wireValue ws b) (wireValue ws c)).1 ∧
      wireValue more 12 = (fullAdder (wireValue ws a) (wireValue ws b) (wireValue ws c)).2 := by
  obtain ⟨m0, h0, l0, s0, c0⟩ := evalNetlist_haNetlist hn ha hb
  subst hn
  obtain ⟨m1, h1, l1, s1, c1⟩ := evalNetlist_haNetlist (ws := ws ++ m0) (n := ws.length + 6) (a := ws.length + 4) (b := c) (by simp [l0]) (by omega) (by omega)
  have e1 : wireValue (ws ++ m0) (ws.length + 4) = wireValue m0 4 := wireValue_new _ _ _
  rw [wireValue_old hc, e1, s0] at s1 c1
  have g5 : wireValue (ws ++ m0 ++ m1) (ws.length + 5) = wireValue m0 5 := by
    rw [List.append_assoc, wireValue_new, wireValue_old (by omega)]
  have g11 : wireValue (ws ++ m0 ++ m1) (ws.length + 11) = wireValue m1 5 := by
    rw [List.append_assoc, wireValue_new, show 11 = m0.length + 5 by omega, wireValue_new]
  refine ⟨m0 ++ m1 ++ [orGate (wireValue m0 5) (wireValue m1 5)], ?_, by simp [l0, l1], ?_, ?_⟩
  · simp only [faNetlist, evalNetlist_append, h0, h1, evalNetlist, gateValue, g5, g11]
    simp only [List.append_assoc]
  · rw [List.append_assoc, show 10 = m0.length + 4 by omega, wireValue_new, wireValue_old (by omega), s1]; rfl
  · rw [show 12 = (m0 ++ m1).length + 0 by simp [l0, l1], wireValue_new, c0, c1]; rfl

/-- The ripple adder's circuit drives 52 wires, five of them the ripple adder's outputs. -/
theorem evalNetlist_add4Netlist {ws : Bits} {n c : Nat} {a b : NibbleWires} (hn : ws.length = n)
    (ha : a.w0 < n ∧ a.w1 < n ∧ a.w2 < n ∧ a.w3 < n) (hb : b.w0 < n ∧ b.w1 < n ∧ b.w2 < n ∧ b.w3 < n) (hc : c < n) :
    ∃ more : Bits, evalNetlist (add4Netlist n a b c) ws = ws ++ more ∧ more.length = 52 ∧
      nibbleOn (ws ++ more) (add4Result n) = (add4 (nibbleOn ws a) (nibbleOn ws b) (wireValue ws c)).1 ∧
      wireValue (ws ++ more) (n + 51) = (add4 (nibbleOn ws a) (nibbleOn ws b) (wireValue ws c)).2 := by
  subst hn
  obtain ⟨a0, a1, a2, a3⟩ := ha
  obtain ⟨b0, b1, b2, b3⟩ := hb
  obtain ⟨m0, h0, l0, s0, c0⟩ := evalNetlist_faNetlist rfl a3 b3 hc
  obtain ⟨m1, h1, l1, s1, c1⟩ := evalNetlist_faNetlist (ws := ws ++ m0) (n := ws.length + 13) (a := a.w2) (b := b.w2) (c := ws.length + 12) (by simp [l0]) (by omega) (by omega) (by omega)
  obtain ⟨m2, h2, l2, s2, c2⟩ := evalNetlist_faNetlist (ws := ws ++ m0 ++ m1) (n := ws.length + 26) (a := a.w1) (b := b.w1) (c := ws.length + 25) (by simp [l0, l1]) (by omega) (by omega) (by omega)
  obtain ⟨m3, h3, l3, s3, c3⟩ := evalNetlist_faNetlist (ws := ws ++ m0 ++ m1 ++ m2) (n := ws.length + 39) (a := a.w0) (b := b.w0) (c := ws.length + 38) (by simp [l0, l1, l2]) (by omega) (by omega) (by omega)
  have w0 : ∀ k, wireValue (ws ++ (m0 ++ (m1 ++ (m2 ++ m3)))) (ws.length + k) = wireValue (m0 ++ (m1 ++ (m2 ++ m3))) k := fun k => wireValue_new _ _ _
  have e1 : wireValue (ws ++ m0) (ws.length + 12) = wireValue m0 12 := wireValue_new _ _ _
  have e2 : wireValue (ws ++ (m0 ++ m1)) (ws.length + 25) = wireValue m1 12 := by
    rw [wireValue_new, show 25 = m0.length + 12 by omega, wireValue_new]
  have e3 : wireValue (ws ++ (m0 ++ (m1 ++ m2))) (ws.length + 38) = wireValue m2 12 := by
    rw [wireValue_new]
    have := wireValue_new (m0 ++ m1) m2 12
    simpa [l0, l1] using this
  simp only [List.append_assoc] at *
  rw [wireValue_old a2, wireValue_old b2, e1, c0] at s1 c1
  rw [wireValue_old a1, wireValue_old b1, e2, c1] at s2 c2
  rw [wireValue_old a0, wireValue_old b0, e3, c2] at s3 c3
  refine ⟨m0 ++ (m1 ++ (m2 ++ m3)), ?_, by simp [l0, l1, l2, l3], ?_, ?_⟩
  · simp only [add4Netlist, evalNetlist_append, h0, h1, h2, h3]
  · have r0 : wireValue (m0 ++ (m1 ++ (m2 ++ m3))) 10 = wireValue m0 10 := wireValue_old (by omega)
    have r1 : wireValue (m0 ++ (m1 ++ (m2 ++ m3))) 23 = wireValue m1 10 := by
      have := wireValue_new m0 (m1 ++ (m2 ++ m3)) 10
      rw [l0] at this; rw [this]; exact wireValue_old (by omega)
    have r2 : wireValue (m0 ++ (m1 ++ (m2 ++ m3))) 36 = wireValue m2 10 := by
      have := wireValue_new (m0 ++ m1) (m2 ++ m3) 10
      simp only [List.length_append, l0, l1, List.append_assoc] at this; rw [this]; exact wireValue_old (by omega)
    have r3 : wireValue (m0 ++ (m1 ++ (m2 ++ m3))) 49 = wireValue m3 10 := by
      have := wireValue_new (m0 ++ m1 ++ m2) m3 10
      simpa only [List.length_append, l0, l1, l2, List.append_assoc] using this
    simp only [nibbleOn, add4Result, w0, r0, r1, r2, r3, s0, s1, s2, s3]
    rfl
  · have r3 : wireValue (m0 ++ (m1 ++ (m2 ++ m3))) 51 = wireValue m3 12 := by
      have := wireValue_new (m0 ++ m1 ++ m2) m3 12
      simpa only [List.length_append, l0, l1, l2, List.append_assoc] using this
    rw [w0, r3, c3]
    rfl

/-- One position of the mux selects. -/
theorem orGate_selects (nop op b t : Bit) (h : nop = notGate op) : orGate (andGate nop b) (andGate op t) = if op = true then t else b := by
  subst h; cases op <;> cases b <;> cases t <;> rfl
/-- The mux's circuit drives thirteen wires, four of them the selected Nibble. -/
theorem evalNetlist_muxNetlist {ws : Bits} {n op : Nat} {b t : NibbleWires} (hn : ws.length = n) (ho : op < n)
    (ha : b.w0 < n ∧ b.w1 < n ∧ b.w2 < n ∧ b.w3 < n) (hb : t.w0 < n ∧ t.w1 < n ∧ t.w2 < n ∧ t.w3 < n) :
    ∃ more : Bits, evalNetlist (muxNetlist n op b t) ws = ws ++ more ∧ more.length = 13 ∧
      nibbleOn (ws ++ more) (muxResult n) = if wireValue ws op = true then nibbleOn ws t else nibbleOn ws b := by
  subst hn
  obtain ⟨a0, a1, a2, a3⟩ := ha
  obtain ⟨b0, b1, b2, b3⟩ := hb
  refine Exists.intro ?_ ⟨?_, ?_⟩
  rotate_left
  · simp only [muxNetlist, muxBitNetlist, List.cons_append, List.nil_append, evalNetlist, gateValue, List.append_assoc, Nat.add_assoc, Nat.reduceAdd,
      wireValue_old ho, wireValue_old a0, wireValue_old a1, wireValue_old a2, wireValue_old a3, wireValue_old b0, wireValue_old b1, wireValue_old b2, wireValue_old b3, wireValue_new, wireValue_end]
    rfl
  · refine ⟨rfl, ?_⟩
    simp only [nibbleOn, muxResult, wireValue_new]
    generalize wireValue ws op = o
    cases o <;> simp only [if_true, Bool.false_eq_true, if_false, Nibble.mk.injEq] <;> refine ⟨?_, ?_, ?_, ?_⟩ <;> exact orGate_selects _ _ _ _ rfl

end Sys2Proof.Machine
end

