-- ==== Sys2Proof/Laws/PerInstr.lean ====
section
/-! SUPPORT. The form of every instruction's word, one lemma per constructor: the dispatch code of its operation, and
after it as many Bits as its format has fields (spec/30_encoding.md R309, R310). -/

namespace Sys2Proof.Laws.WordForm

/-- The word is FN and then W - 4 Bits, and FN names the instruction's own operation. -/
def Statement (i : Instr) : Prop :=
  (encode i).take 4 = i.fn.code ∧ (encode i).length = i.fn.format.width ∧
    ∀ f3 f2 f1 f0 : Bit, i.fn.code = [f3, f2, f1, f0] → fnOf f3 f2 f1 f0 = some i.fn

/-- A dispatch code names its own operation. -/
theorem fnOf_code (fn : Fn) : ∀ f3 f2 f1 f0 : Bit, fn.code = [f3, f2, f1, f0] → fnOf f3 f2 f1 f0 = some fn := by
  cases fn <;> decide

theorem and (a b : Bit) : Statement (.and a b) := ⟨rfl, rfl, fnOf_code _⟩
theorem or (a b : Bit) : Statement (.or a b) := ⟨rfl, rfl, fnOf_code _⟩
theorem not (a : Bit) : Statement (.not a) := ⟨rfl, rfl, fnOf_code _⟩
theorem xor (a b : Bit) : Statement (.xor a b) := ⟨rfl, rfl, fnOf_code _⟩
theorem nand (a b : Bit) : Statement (.nand a b) := ⟨rfl, rfl, fnOf_code _⟩
theorem ha (a b : Bit) : Statement (.ha a b) := ⟨rfl, rfl, fnOf_code _⟩
theorem fa (a b cin : Bit) : Statement (.fa a b cin) := ⟨rfl, rfl, fnOf_code _⟩
theorem add4 (a b : Nibble) (cin : Bit) : Statement (.add4 a b cin) := ⟨rfl, rfl, fnOf_code _⟩
theorem ones (x : Nibble) : Statement (.ones x) := ⟨rfl, rfl, fnOf_code _⟩
theorem twos (x : Nibble) : Statement (.twos x) := ⟨rfl, rfl, fnOf_code _⟩
theorem add (a b : Nibble) : Statement (.add a b) := ⟨rfl, rfl, fnOf_code _⟩
theorem sub (a b : Nibble) : Statement (.sub a b) := ⟨rfl, rfl, fnOf_code _⟩
theorem toSigned (r : Nibble) (s c : Bit) : Statement (.toSigned r s c) := ⟨rfl, rfl, fnOf_code _⟩

end Sys2Proof.Laws.WordForm
end

