-- ==== Sys2Proof/Tests/Slice0.lean ====
section
/-! SUPPORT. Tests. Expected results are the spec's: spec/95_test_vectors.md (W, A, S, T, E, P numbers), the tables of
40_gates.md to 44_interpret.md, and words written out from 30_encoding.md R309 and R310. Then the witnesses: states and
operands that meet the hypotheses of the statements. -/

namespace Sys2Proof.Tests

open Sys2Proof Sys2Proof.Machine

/-- A Nibble from its four digits, most significant first. -/
def nb (a b c d : Nat) : Nibble := ⟨a == 1, b == 1, c == 1, d == 1⟩

/-- A word from its digits. -/
def wd (ds : List Nat) : Bits := ds.map (· == 1)

/-- The reply of a next state. -/
def replyOf : Host.Outcome State Fault Refusal → Option Reply
  | .next s => some s.reply
  | .fault _ => none
  | .refused _ => none

/-- The reason of a refusal. -/
def refusalIn : Host.Outcome State Fault Refusal → Option Refusal
  | .refused r => some r
  | .next _ => none
  | .fault _ => none

/-- The reply to one call. -/
def answerTo (c : Call) : Option Reply := replyOf (step ⟨(), [c], .nothing⟩)

/-- The reply to one word. -/
def answerToWord (ds : List Nat) : Option Reply := answerTo (.words (wd ds))

/-- The refusal of one call. -/
def refusalOfCall (c : Call) : Option Refusal := refusalIn (step ⟨(), [c], .nothing⟩)

/-- The instruction and the rest of a stretch of Bits. -/
def decoded (ds : List Nat) : Option (Instr × Bits) := (decode (wd ds)).toOption

/-! ## Decoding, one word of every operation (95 section 2.9) -/

theorem test_decode_and : decoded [0, 0, 0, 0, 1, 0] = some (.and true false, []) := by decide
theorem test_decode_or : decoded [0, 0, 0, 1, 0, 1] = some (.or false true, []) := by decide
theorem test_decode_not : decoded [0, 0, 1, 0, 0] = some (.not false, []) := by decide
theorem test_decode_xor : decoded [0, 0, 1, 1, 1, 0] = some (.xor true false, []) := by decide
theorem test_decode_nand : decoded [0, 1, 0, 0, 0, 1] = some (.nand false true, []) := by decide
theorem test_decode_ha : decoded [0, 1, 0, 1, 0, 1] = some (.ha false true, []) := by decide
theorem test_decode_fa : decoded [0, 1, 1, 0, 1, 0, 1] = some (.fa true false true, []) := by decide
theorem test_decode_add4 :
    decoded [0, 1, 1, 1, 0, 1, 0, 1, 0, 0, 1, 1, 0] = some (.add4 (nb 0 1 0 1) (nb 0 0 1 1) false, []) := by decide
theorem test_decode_ones : decoded [1, 0, 0, 0, 0, 1, 0, 1] = some (.ones (nb 0 1 0 1), []) := by decide
theorem test_decode_twos : decoded [1, 0, 0, 1, 0, 1, 0, 1] = some (.twos (nb 0 1 0 1), []) := by decide
theorem test_decode_add :
    decoded [1, 0, 1, 0, 0, 1, 0, 1, 0, 0, 1, 1] = some (.add (nb 0 1 0 1) (nb 0 0 1 1), []) := by decide
theorem test_decode_sub :
    decoded [1, 0, 1, 1, 0, 1, 1, 1, 0, 0, 1, 0] = some (.sub (nb 0 1 1 1) (nb 0 0 1 0), []) := by decide
theorem test_decode_toSigned :
    decoded [1, 1, 0, 0, 1, 0, 1, 1, 1, 0] = some (.toSigned (nb 1 0 1 1) true false, []) := by decide

/-- R311: FN alone tells the length, and the Bits after the word are left. -/
theorem test_decode_leaves_rest : decoded [0, 0, 1, 0, 1, 1, 1] = some (.not true, [true, true]) := by decide

/-- R312. -/
theorem test_decode_reserved :
    decode (wd [1, 1, 0, 1, 0, 0]) = .error (.reservedFn true true false true) ∧
      decode (wd [1, 1, 1, 1]) = .error (.reservedFn true true true true) := ⟨rfl, rfl⟩

theorem test_decode_short :
    decode (wd [0, 1, 1, 1, 0, 1]) = .error (.truncated .add4) ∧ decode (wd [0, 1, 1]) = .error .noFn := ⟨rfl, rfl⟩

/-- R310: SUB with a = 0010 and b = 0111. -/
theorem test_encode_sub : encode (.sub (nb 0 0 1 0) (nb 0 1 1 1)) = wd [1, 0, 1, 1, 0, 0, 1, 0, 0, 1, 1, 1] := by decide

/-- spec/opcode_table.json: match values with operands 0, at the row's width and in whole bytes. -/
theorem test_tableWord :
    decodeTableWord 5 0x4 = some (.not false) ∧ decodeTableWord 6 0x4 = some (.or false false) ∧
      decodeTableWord 8 0x30 = some (.fa false false false) ∧
      decodeTableWord 16 0xE00 = some (.add4 (nb 0 0 0 0) (nb 0 0 0 0) false) ∧
      decodeTableWord 16 0xB72 = some (.sub (nb 0 1 1 1) (nb 0 0 1 0)) ∧ decodeTableWord 8 0xD0 = none := by decide

theorem test_fetchWord :
    replyOf (step (State.reset.withFetchWord 12 0xB72)) = some (.outputs (.addSub (nb 0 1 0 1) true)) := by decide

/-! ## Operations -/

theorem test_and : answerToWord [0, 0, 0, 0, 1, 0] = some (.outputs (.gate false)) := by decide
theorem test_or : answerToWord [0, 0, 0, 1, 1, 0] = some (.outputs (.gate true)) := by decide
theorem test_not : answerToWord [0, 0, 1, 0, 1] = some (.outputs (.gate false)) := by decide
theorem test_xor : answerToWord [0, 0, 1, 1, 1, 1] = some (.outputs (.gate false)) := by decide
theorem test_nand : answerToWord [0, 1, 0, 0, 0, 0] = some (.outputs (.gate true)) := by decide
theorem test_ha : answerToWord [0, 1, 0, 1, 1, 1] = some (.outputs (.halfAdder false true)) := by decide
theorem test_fa : answerToWord [0, 1, 1, 0, 0, 1, 1] = some (.outputs (.fullAdder false true)) := by decide

/-- A8. -/
theorem test_add4_carries :
    answerToWord [0, 1, 1, 1, 1, 1, 0, 0, 1, 0, 1, 0, 0] = some (.outputs (.adder (nb 0 1 1 0) true)) := by decide

/-- A9. -/
theorem test_add4_carry_in :
    answerToWord [0, 1, 1, 1, 1, 0, 1, 0, 0, 1, 0, 1, 1] = some (.outputs (.adder (nb 0 0 0 0) true)) := by decide

theorem test_ones : answerToWord [1, 0, 0, 0, 0, 0, 1, 1] = some (.outputs (.complement (nb 1 1 0 0))) := by decide

/-- W6. -/
theorem test_twos_fixed_point : answerToWord [1, 0, 0, 1, 1, 0, 0, 0] = some (.outputs (.complement (nb 1 0 0 0))) := by
  decide

theorem test_twos : answerToWord [1, 0, 0, 1, 0, 0, 1, 1] = some (.outputs (.complement (nb 1 1 0 1))) := by decide

/-- W14. -/
theorem test_add_overflows :
    answerToWord [1, 0, 1, 0, 1, 0, 0, 0, 1, 0, 0, 0] = some (.outputs (.addSub (nb 0 0 0 0) true)) := by decide

/-- S2. -/
theorem test_sub_borrows :
    answerToWord [1, 0, 1, 1, 0, 0, 1, 0, 0, 1, 1, 1] = some (.outputs (.addSub (nb 1 0 1 1) false)) := by decide

/-- S5, P4: the subtrahend 0000. -/
theorem test_sub_zero :
    answerToWord [1, 0, 1, 1, 0, 1, 0, 1, 0, 0, 0, 0] = some (.outputs (.addSub (nb 0 1 0 1) false)) := by decide

/-- T4. -/
theorem test_toSigned_least : answerToWord [1, 1, 0, 0, 0, 0, 0, 1, 1, 0] = some (.outputs (.interpreter (-15))) := by
  decide

/-- T2. -/
theorem test_toSigned_ignores_carry :
    answerToWord [1, 1, 0, 0, 0, 1, 0, 1, 0, 1] = some (.outputs (.interpreter 5)) := by decide

/-- R802: -5 is 11011, -15 is 10001 and 15 is 01111 (95 section 2.7). -/
theorem test_port : portV (-5) = 0b11011#5 ∧ portV (-15) = 0b10001#5 ∧ portV 15 = 0b01111#5 := by decide

/-- P1 through the assembled block. -/
theorem test_topLevel :
    answerTo (.topLevel (nb 0 0 1 0) (nb 0 1 1 1) true) = some (.outputs (.topLevel (nb 1 0 1 1) false (-5))) := by decide

/-- R907, E16. -/
theorem test_step_reserved : refusalOfCall (.words (wd [1, 1, 0, 1, 0, 0])) = some (.reservedFn true true false true) := by
  decide

theorem test_step_short : refusalOfCall (.words (wd [0, 0, 1, 0])) = some .truncatedWord := by decide

/-! ## Software calls (95 section 2.8) -/

theorem test_E1 : answerTo (.entry (.addSubtract [0, 0, 0] [0, 0, 1, 1] 0)) = some (.error (.invalidLength .a 3)) := by
  decide
theorem test_E3 : answerTo (.entry (.addSubtract [0, 0, 0] [0, 0, 1, 1] 2)) = some (.error (.invalidOperation 2)) := by
  decide
theorem test_E5 : answerTo (.entry (.addSubtract [0, 2, 0, 1] [0, 0, 1] 1)) = some (.error (.invalidLength .b 3)) := by
  decide
theorem test_E6 :
    answerTo (.entry (.addSubtract [0, 1, 0, 1] [0, 0, 7, 1] 1)) = some (.error (.invalidBit .b (some 2))) := by decide
theorem test_E7 :
    answerTo (.entry (.addSubtract [0, 1, 0, 9] [0, 0, 7, 1] 0)) = some (.error (.invalidBit .a (some 3))) := by decide
theorem test_E8 : answerTo (.entry (.add4 [0, 0, 0, 0, 1] [0, 0, 0, 1] (some 0))) = some (.error (.invalidLength .a 5)) := by
  decide
theorem test_E9 : answerTo (.entry (.add4 [0, 1, 0, 1] [0, 0, 1, 1] (some 2))) = some (.error (.invalidBit .cin none)) := by
  decide
theorem test_E10 :
    answerTo (.entry (.add4 [0, 1, 0, 2] [0, 0, 1, 1] (some 2))) = some (.error (.invalidBit .a (some 3))) := by decide
theorem test_E11 : answerTo (.entry (.twosComplement [])) = some (.error (.invalidLength .x 0)) := by decide
theorem test_E12 : answerTo (.entry (.twosComplement [1, 0, 1, 3])) = some (.error (.invalidBit .x (some 3))) := by decide
theorem test_E13 : answerTo (.entry (.onesComplement [1, 1])) = some (.error (.invalidLength .x 2)) := by decide
theorem test_E14 : refusalOfCall (.entry (.and 2 1)) = some .gateArgument := by decide
theorem test_E15 : refusalOfCall (.entry (.toSignedValue [1, 1] (.bool true) 0)) = some .interpreterArgument := by decide
theorem test_E17 :
    answerTo (.entry (.addSubtract [0, 1, 0, 1] [0, 0, 1, 1] 1)) = some (.outputs (.addSub (nb 0 0 1 0) true)) := by decide

/-- R900, with the codes of E1, E6 and E2. -/
theorem test_codes :
    errorCode (.invalidLength .a 3) = 1 ∧ errorCode (.invalidBit .b (some 2)) = 2 ∧ errorCode (.invalidOperation 2) = 3 := by
  decide

/-- A11: the carry-in left out. -/
theorem test_add4_default_carry :
    answerTo (.entry (.add4 [0, 1, 0, 1] [0, 0, 1, 1] none)) = some (.outputs (.adder (nb 1 0 0 0) false)) := by decide

/-! ## Lines -/

/-- R314's example, with its outputs as the comment. -/
theorem test_line_reads :
    readLine ['S', 'U', 'B', ' ', '0', '1', '1', '1', ',', ' ', '0', '0', '1', '0', ' ', '-', '>', ' ', '0', '1', '0', '1',
      ',', ' ', '1'] = some (.core (.sub (nb 0 1 1 1) (nb 0 0 1 0))) := by decide

theorem test_line_writes :
    lineWithOutputs (.core (.sub (nb 0 1 1 1) (nb 0 0 1 0))) (.addSub (nb 0 1 0 1) true) =
      ['S', 'U', 'B', ' ', '0', '1', '1', '1', ',', ' ', '0', '0', '1', '0', ' ', '-', '>', ' ', '0', '1', '0', '1', ',', ' ',
        '1'] := by decide

/-- P5, step 1. -/
theorem test_assemble_neg : assemble ['N', 'E', 'G', ' ', '0', '0', '1', '1'] = some (wd [1, 0, 0, 1, 0, 0, 1, 1]) := by
  decide

/-! ## WellFormed: an ill-formed term for each check -/

theorem test_wf_gates :
    (EntryCall.and 2 1).wellFormed = false ∧ (EntryCall.or 0 (-1)).wellFormed = false ∧ (EntryCall.not 2).wellFormed = false ∧
      (EntryCall.xor 3 0).wellFormed = false ∧ (EntryCall.nand 0 3).wellFormed = false ∧
      (EntryCall.ha 2 0).wellFormed = false ∧ (EntryCall.fa 0 1 2).wellFormed = false := by decide
theorem test_wf_add4 :
    (EntryCall.add4 [0, 0, 0] [0, 0, 0, 0] none).wellFormed = false ∧
      (EntryCall.add4 [0, 0, 0, 0] [0, 0, 0, 2] none).wellFormed = false ∧
      (EntryCall.add4 [0, 0, 0, 0] [0, 0, 0, 0] (some 2)).wellFormed = false ∧
      (EntryCall.add4 [0, 0, 0, 0] [0, 0, 0, 0] none).wellFormed = true := by decide
theorem test_wf_complements :
    (EntryCall.twosComplement [1, 1, 1, 1, 1]).wellFormed = false ∧ (EntryCall.onesComplement [4, 0, 0, 0]).wellFormed = false := by
  decide
theorem test_wf_addSubtract :
    (EntryCall.addSubtract [0, 0, 0, 0] [0, 0, 0, 0] 2).wellFormed = false ∧
      (EntryCall.addSubtract [0, 0, 0, 0] [0, 0] 1).wellFormed = false := by decide
theorem test_wf_toSigned :
    (EntryCall.toSignedValue [1, 1] (.bool true) 0).wellFormed = false ∧
      (EntryCall.toSignedValue [1, 1, 1, 1] (.nonBoolean 1) 0).wellFormed = false ∧
      (EntryCall.toSignedValue [1, 1, 1, 1] (.bool true) 2).wellFormed = false := by decide

/-! ## Witnesses -/

/-- GatesArePureAndTotal. -/
theorem witness_gate : (Instr.not true).fn ∈ [Fn.and, .or, .not, .xor, .nand] := by decide

/-- StepTakesOneCall: a call that is no stretch of words, a stretch of two words, and one of a single word. -/
theorem witness_step :
    step ⟨(), [.line (.neg (nb 0 0 1 1))], .nothing⟩ = .next ⟨(), [], .outputs (.complement (nb 1 1 0 1))⟩ ∧
      step ⟨(), [.words (wd [0, 0, 1, 0, 0, 0, 0, 1, 0, 1])], .nothing⟩ =
        .next ⟨(), [.words (wd [0, 0, 1, 0, 1])], .outputs (.gate true)⟩ ∧
      step ⟨(), [.words (wd [0, 0, 1, 0, 1]), .line (.neg (nb 0 0 1 1))], .nothing⟩ =
        .next ⟨(), [.line (.neg (nb 0 0 1 1))], .outputs (.gate false)⟩ := ⟨rfl, rfl, rfl⟩

/-- CarryComesFromTheAddersAlone: an instruction for each clause on the form of the outputs. -/
theorem witness_forms :
    (Instr.nand true true).fn ∈ [Fn.and, .or, .not, .xor, .nand] ∧ (Instr.ha true true).fn = .ha ∧
      (Instr.fa true true true).fn = .fa ∧ (Instr.add4 (nb 1 1 1 1) (nb 0 0 0 1) true).fn = .add4 ∧
      (Instr.ones (nb 0 0 0 0)).fn ∈ [Fn.ones, .twos] ∧ (Instr.sub (nb 0 0 0 0) (nb 0 0 0 0)).fn ∈ [Fn.add, .sub] ∧
      (Instr.toSigned (nb 0 0 0 1) true false).fn = .toSigned := by decide

/-- TwosComplementNegatesModulo16: each side of its last clauses. -/
theorem witness_twos : nb 0 1 1 1 ≠ ⟨true, false, false, false⟩ ∧ nb 1 0 0 0 = ⟨true, false, false, false⟩ := by decide

/-- AddGivesTheSumModulo16: a sum that carries. -/
theorem witness_add_carry : (addSubtract (nb 1 0 0 0) (nb 1 0 0 0) false).2 = true := by decide

/-- SubGivesTheDifferenceAndItsCarry: b other than 0000 with carry 0, and b = 0000. -/
theorem witness_sub :
    (uval (nb 0 0 0 1) ≠ 0 ∧ (addSubtract (nb 0 0 0 0) (nb 0 0 0 1) true).2 = false) ∧ uval (nb 0 0 0 0) = 0 := by decide

/-- InterpreterFollowsThePaths: each path. -/
theorem witness_paths :
    ((false : Bit) = false ∨ (false : Bit) = true) ∧ ((true : Bit) = false ∨ (true : Bit) = true) ∧
      ((true : Bit) = true ∧ (false : Bit) = false) := by decide

/-- AssembledBlockGivesTheArithmetic: each clause. -/
theorem witness_assembled :
    uval (nb 1 1 1 1) ≠ 0 ∧ (uval (nb 0 0 0 0) = 0 ∧ uval (nb 0 0 0 1) ≠ 0) ∧ uval (nb 0 0 0 0) = 0 := by decide

/-- EncodeInvertsDecode, StepRunsTheDecodedInstruction: with nothing left and with something left. -/
theorem witness_decode :
    decode (wd [0, 0, 1, 0, 0]) = .ok (.not false, []) ∧ decode (wd [0, 0, 1, 0, 0, 1]) = .ok (.not false, [true]) :=
  ⟨rfl, rfl⟩

/-- ReservedCodesAreRefused: the three codes. -/
theorem witness_reserved :
    ((false : Bit) = true ∨ (true : Bit) = true) ∧ ((true : Bit) = true ∨ (false : Bit) = true) ∧
      ((true : Bit) = true ∨ (true : Bit) = true) := by decide

/-- NibbleArgumentsAreDecoded, ComplementCallsCheckTheirArgument: lengths 3 and 5, a first bad element at index 0 and at
index 3, and a Nibble. -/
theorem witness_nibble_argument :
    ([0, 0, 0] : List Value).length ≠ 4 ∧ ([0, 0, 0, 0, 0] : List Value).length ≠ 4 ∧
      (([2, 0, 5, 0] : List Value).length = 4 ∧ FirstNonBit [2, 0, 5, 0] 0) ∧
      (([1, 0, 0, -1] : List Value).length = 4 ∧ FirstNonBit [1, 0, 0, -1] 3) ∧
      (([1, 0, 0, 1] : List Value).length = 4 ∧ ∀ v ∈ ([1, 0, 0, 1] : List Value), v = 0 ∨ v = 1) :=
  ⟨by decide, by decide, ⟨rfl, ⟨2, rfl, by decide, by decide⟩, by decide⟩,
    ⟨rfl, ⟨-1, rfl, by decide, by decide⟩, by decide⟩, rfl, by decide⟩

/-- CarryInArgumentIsDecoded, OperationSelectorIsDecoded: the values next to 0 and 1. -/
theorem witness_value : ((2 : Value) ≠ 0 ∧ (2 : Value) ≠ 1) ∧ ((-1 : Value) ≠ 0 ∧ (-1 : Value) ≠ 1) := by decide

/-- AddSubtractReportsTheFirstFailure, RippleAdderCallReportsTheFirstFailure: each clause. -/
theorem witness_first_failure :
    ((2 : Value) ≠ 0 ∧ (2 : Value) ≠ 1) ∧ ((1 : Value) = 0 ∨ (1 : Value) = 1) ∧ ([] : List Value).length ≠ 4 ∧
      (([0, 0, 0, 2] : List Value).length = 4 ∧ ([0] : List Value).length ≠ 4) ∧
      (([0, 0, 0, 2] : List Value).length = 4 ∧ ([3, 0, 0, 0] : List Value).length = 4 ∧ FirstNonBit [0, 0, 0, 2] 3) ∧
      (([3, 0, 0, 0] : List Value).length = 4 ∧ Value.isNibble [0, 0, 0, 1] = true ∧ FirstNonBit [3, 0, 0, 0] 0) ∧
      (Value.isNibble [0, 0, 0, 1] = true ∧ Value.isNibble [1, 1, 1, 1] = true) :=
  ⟨by decide, by decide, by decide, by decide,
    ⟨rfl, rfl, ⟨2, rfl, by decide, by decide⟩, by decide⟩,
    ⟨rfl, by decide, ⟨3, rfl, by decide, by decide⟩, by decide⟩, by decide⟩

/-- CheckedCallsAreAllOrNothing: a call of each entry point, kept and broken. -/
theorem witness_checked :
    ((EntryCall.addSubtract [0, 0, 0, 0] [1, 1, 1, 1] 1).wellFormed = true ∧
      (EntryCall.addSubtract [0, 0, 0, 0] [1, 1, 1, 1] 2).wellFormed = false) ∧
    ((EntryCall.twosComplement [0, 0, 0, 0]).wellFormed = true ∧ (EntryCall.twosComplement [0]).wellFormed = false) ∧
    ((EntryCall.add4 [0, 0, 0, 0] [1, 1, 1, 1] (some 1)).wellFormed = true ∧
      (EntryCall.add4 [0, 0, 0, 0] [1, 1, 1, 1] (some 2)).wellFormed = false) := by decide

/-- UncheckedCallsAreEvaluatedOrRefused: each clause. -/
theorem witness_unchecked :
    ((EntryCall.fa 1 1 1).checked = false ∧ (EntryCall.fa 1 1 1).wellFormed = true) ∧
    ((EntryCall.toSignedValue [1] (.bool true) 0).checked = false ∧
      (EntryCall.toSignedValue [1] (.bool true) 0).wellFormed = false) ∧
    ((EntryCall.fa 1 1 2).checked = false ∧ (EntryCall.fa 1 1 2).wellFormed = false) := by decide

/-- UncheckedCallsAreEvaluatedOrRefused: the kinds of its last two clauses. -/
theorem witness_unchecked_kind :
    (∃ r s v, EntryCall.toSignedValue [1] (.bool true) 0 = .toSignedValue r s v) ∧
      ¬∃ r s v, EntryCall.fa 1 1 2 = .toSignedValue r s v :=
  ⟨⟨_, _, _, rfl⟩, by rintro ⟨_, _, _, h⟩; cases h⟩

/-- ErrorsLeaveNothingBehind. -/
theorem witness_error : decodeEntry (.addSubtract [0, 1, 0, 1] [0, 0, 1, 1] 2) = .error (.invalidOperation 2) := by decide

/-- CallProgramsRunToTheEnd: P7 with a line after it. -/
theorem witness_call_program :
    ∀ c ∈ [Call.entry (.addSubtract [0, 1, 0, 1] [0, 0, 1, 1] 2), .entry (.not 1), .line (.neg (nb 0 0 1 1))], Answered c := by
  simp [Answered, EntryCall.checked, EntryCall.wellFormed, Value.isBit]

/-- UnsignedReadingIsOneToOne, NegativeIntegersAreEncodedModulo16: the ends of their ranges. -/
theorem witness_readings : (15 ≤ 15 ∧ uval (nb 1 1 1 1) = 15) ∧ (1 ≤ 1 ∧ 1 ≤ 8) ∧ (1 ≤ 8 ∧ 8 ≤ 8) := by decide

/-- StepKeepsRepliesLegal: a legal state that steps. -/
theorem witness_legal :
    (⟨(), [.topLevel (nb 0 0 0 0) (nb 1 1 1 1) true], .outputs (.interpreter (-15))⟩ : State).Inv ∧
      step ⟨(), [.topLevel (nb 0 0 0 0) (nb 1 1 1 1) true], .outputs (.interpreter (-15))⟩ =
        .next ⟨(), [], .outputs (.topLevel (nb 0 0 0 1) false (-15))⟩ :=
  ⟨⟨⟨by decide, by decide⟩, by decide⟩, rfl⟩

end Sys2Proof.Tests
end

section
/-! The unsigned reading of a Nibble and `nib`, its inverse on 0..15 (spec/00_scope.md R13, R14). -/

namespace Sys2Proof.Machine

theorem bval_eq_toNat (b : Bit) : bval b = b.toNat := by cases b <;> rfl

theorem bval_testBit (v k : Nat) : bval (v.testBit k) = v / 2 ^ k % 2 := by
  rw [bval_eq_toNat, Nat.toNat_testBit]

/-- R14's formula in the notation of R13: position `k` has weight `2^k`. -/
theorem uval_eq_positions (x : Nibble) :
    uval x = 8 * bval (position x 3) + 4 * bval (position x 2) + 2 * bval (position x 1) + bval (position x 0) := rfl

/-- `nib` keeps a number's low four binary digits, and these weigh what the number is modulo 16. -/
theorem uval_nib (v : Nat) : uval (nib v) = v % 16 := by
  simp only [uval, nib, bval_testBit]
  omega

theorem uval_nib_of_le {v : Nat} (h : v ≤ 15) : uval (nib v) = v := by
  rw [uval_nib, Nat.mod_eq_of_lt (by omega)]

theorem nib_uval (x : Nibble) : nib (uval x) = x := uval_inj (uval_nib_of_le (uval_le x))

/-- Settles O50: the position form and the list form are `uval` itself, `uval_le` bounds it, and `nib` inverts it from both sides. -/
theorem unsignedReadingIsOneToOne : Obligations.UnsignedReadingIsOneToOne := by
  refine ⟨fun x => ⟨uval_eq_positions x, rfl, uval_le x⟩, fun v hv => ⟨uval_nib_of_le hv, ?_⟩⟩
  rintro y rfl
  exact (nib_uval y).symm

end Sys2Proof.Machine
end

section
/-! What a step makes of the call that stands first, case by case (spec/10_state.md R101). -/

namespace Sys2Proof.Machine

/-- Every operation delivers its outputs, and which ones does not depend on the state. -/
theorem exec_eq_deliver (i : Instr) : ∃ o : Outputs, ∀ s : State, exec i s = deliver o s := by
  cases i <;> exact ⟨_, fun _ => rfl⟩

/-- The calls put back after a word do not depend on the calls that follow. -/
theorem remaining_eq_append (left : Bits) (later : List Call) : remaining left later = remaining left [] ++ later := by
  cases left <;> rfl

theorem step_words_of_ok {bits left : Bits} {i : Instr} (h : decode bits = .ok (i, left)) (k : CoreState)
    (later : List Call) (old : Reply) :
    step ⟨k, .words bits :: later, old⟩ = exec i ⟨k, remaining left later, old⟩ := by
  simp only [step, h, State.withCalls]

theorem step_words_of_error {bits : Bits} {e : DecodeError} (h : decode bits = .error e) (k : CoreState)
    (later : List Call) (old : Reply) : step ⟨k, .words bits :: later, old⟩ = .refused (refusalOf e) := by
  simp only [step, h]

theorem step_entry_of_run {c : EntryCall} {i : Instr} (h : decodeEntry c = .run i) (k : CoreState)
    (later : List Call) (old : Reply) : step ⟨k, .entry c :: later, old⟩ = exec i ⟨k, later, old⟩ := by
  simp only [step, h, State.withCalls]

theorem step_entry_of_error {c : EntryCall} {e : BoundaryError} (h : decodeEntry c = .error e) (k : CoreState)
    (later : List Call) (old : Reply) : step ⟨k, .entry c :: later, old⟩ = .next ⟨k, later, .error e⟩ := by
  simp only [step, h, State.withCalls, raise_eq_next]

theorem step_entry_of_refuse {c : EntryCall} {r : Refusal} (h : decodeEntry c = .refuse r) (k : CoreState)
    (later : List Call) (old : Reply) : step ⟨k, .entry c :: later, old⟩ = .refused r := by
  simp only [step, h]

theorem step_line (l : Line) (k : CoreState) (later : List Call) (old : Reply) :
    step ⟨k, .line l :: later, old⟩ = exec l.expand ⟨k, later, old⟩ := rfl

theorem step_topLevel (A B : Nibble) (OP : Bit) (k : CoreState) (later : List Call) (old : Reply) :
    step ⟨k, .topLevel A B OP :: later, old⟩ =
      .next ⟨k, later, .outputs (.topLevel (addSubtract A B OP).1 (addSubtract A B OP).2
        (toSignedValue (addSubtract A B OP).1 OP (addSubtract A B OP).2))⟩ := rfl

/-- A call whose step is one operation's evaluation gets one reply, whatever came before and whatever comes after. -/
theorem step_reply_of_exec {c : Call} {i : Instr} {left : List Call}
    (h : ∀ (k : CoreState) (later : List Call) (old : Reply), step ⟨k, c :: later, old⟩ = exec i ⟨k, left ++ later, old⟩) :
    ∃ reply : Reply, ∀ (k : CoreState) (later : List Call) (old : Reply),
      step ⟨k, c :: later, old⟩ = .next ⟨k, left ++ later, reply⟩ := by
  obtain ⟨o, ho⟩ := exec_eq_deliver i
  exact ⟨.outputs o, fun k later old => by rw [h, ho, deliver_eq_next]⟩

/-- Settles O21: an operation's arm does nothing but deliver outputs computed from its operands. -/
theorem outputsDependOnInputsAlone : Obligations.OutputsDependOnInputsAlone := by
  intro i
  obtain ⟨o, ho⟩ := exec_eq_deliver i
  exact ⟨o, fun s => by rw [ho, deliver_eq_next]⟩

/-- Settles O55: the decoder and the boundary look at the call alone, and the operation they lead to replies the same
from every state; only a stretch of words has something put back. -/
theorem noEvaluationRemembersAnother : Obligations.NoEvaluationRemembersAnother := by
  refine ⟨fun _ _ => rfl, fun c => ?_⟩
  cases c with
  | words bits =>
    cases h : decode bits with
    | ok read =>
      obtain ⟨i, left⟩ := read
      refine .inl ⟨remaining left [], step_reply_of_exec (i := i) fun k later old => ?_⟩
      rw [step_words_of_ok h, remaining_eq_append]
    | error e => exact .inr ⟨refusalOf e, step_words_of_error h⟩
  | entry c =>
    cases h : decodeEntry c with
    | run i => exact .inl ⟨[], step_reply_of_exec (step_entry_of_run h)⟩
    | error e => exact .inl ⟨[], .error e, step_entry_of_error h⟩
    | refuse r => exact .inr ⟨r, step_entry_of_refuse h⟩
  | line l => exact .inl ⟨[], step_reply_of_exec (step_line l)⟩
  | topLevel A B OP => exact .inl ⟨[], _, step_topLevel A B OP⟩

end Sys2Proof.Machine
end

section
/-! The shared datapath and the interpreter as arithmetic (spec/42_complement.md R602, spec/43_addsub.md R703, R704,
spec/44_interpret.md R800, R803). -/

namespace Sys2Proof.Machine

/-- R602: the additive inverse modulo 16. -/
theorem uval_twosComplement (x : Nibble) : uval (twosComplement x) = (16 - uval x) % 16 := by
  have hsum : concat (add4 (onesComplement x) nibbleOne tiedCarry).2 (twosComplement x) = uval (onesComplement x) + 1 :=
    add4_concat (onesComplement x) nibbleOne tiedCarry
  have hinv := uval_onesComplement x
  have hle := uval_le (twosComplement x)
  simp only [concat] at hsum
  omega

/-- R703: the five-bit result of ADD. -/
theorem concat_addSubtract_false (a b : Nibble) :
    concat (addSubtract a b false).2 (addSubtract a b false).1 = uval a + uval b :=
  add4_concat a b tiedCarry

/-- R704: the five-bit result of SUB, in which a subtrahend of 0000 adds nothing. -/
theorem concat_addSubtract_true (a b : Nibble) :
    concat (addSubtract a b true).2 (addSubtract a b true).1 = uval a + (16 - uval b) % 16 := by
  rw [← uval_twosComplement]
  exact add4_concat a (twosComplement b) tiedCarry

theorem uval_addSubtract_false (a b : Nibble) : uval (addSubtract a b false).1 = (uval a + uval b) % 16 := by
  have hsum := concat_addSubtract_false a b
  have hle := uval_le (addSubtract a b false).1
  simp only [concat] at hsum
  omega

theorem toSignedValue_false (r : Nibble) (c : Bit) : toSignedValue r false c = (uval r : Int) := rfl

theorem toSignedValue_true_true (r : Nibble) : toSignedValue r true true = (uval r : Int) := rfl

theorem toSignedValue_true_false (r : Nibble) : toSignedValue r true false = -(((16 - uval r) % 16 : Nat) : Int) := by
  rw [← uval_twosComplement]
  rfl

/-- R803, C3: what the interpreter makes of a difference `r` with its carry `c`, where SUB has added `16 - b`, or
nothing for `b = 0`. -/
theorem toSignedValue_of_difference {r : Nibble} {c : Bit} {a b : Nat} (ha : a ≤ 15) (hb : b ≤ 15)
    (h : concat c r = a + (16 - b) % 16) :
    toSignedValue r true c = if b ≠ 0 then (a : Int) - b else if a ≠ 0 then (a : Int) - 16 else 0 := by
  have hr := uval_le r
  cases c with
  | true =>
    rw [toSignedValue_true_true]
    simp only [concat, bval_true] at h
    split_ifs <;> omega
  | false =>
    rw [toSignedValue_true_false]
    simp only [concat, bval_false] at h
    split_ifs <;> omega

/-- Settles O20: the sum is ADD's result, and the difference is read off SUB's five-bit result. -/
theorem assembledBlockGivesTheArithmetic : Obligations.AssembledBlockGivesTheArithmetic := by
  intro A B later old
  constructor
  · refine ⟨(addSubtract A B false).1, (addSubtract A B false).2, ?_⟩
    rw [step_topLevel, toSignedValue_false, uval_addSubtract_false]
  · refine ⟨_, _, _, step_topLevel A B true () later old, ?_⟩
    rw [toSignedValue_of_difference (uval_le A) (uval_le B) (concat_addSubtract_true A B)]
    refine ⟨fun hB => if_pos hB, fun hB hA => ?_, fun hB hA => ?_⟩ <;> simp [hB, hA]

end Sys2Proof.Machine
end

section
/-! Repeating an evaluation (spec/20_memory.md R207). -/

namespace Sys2Proof.Machine

/-- Only the last delivery stays, so the same outputs delivered again are already there. -/
theorem deliver_answer (o : Outputs) (s : State) : deliver o (s.answer o) = .next (s.answer o) := rfl

/-- Settles O22: whatever the state, an operation delivers the same outputs, which the repetition finds in place. -/
theorem evaluationsHaveNoSideEffect : Obligations.EvaluationsHaveNoSideEffect := by
  intro i s
  obtain ⟨o, ho⟩ := exec_eq_deliver i
  exact ⟨s.answer o, ho s, s.answer_calls o, by rw [ho, deliver_answer]⟩

end Sys2Proof.Machine
end

section
/-! The signed reading of a Nibble (spec/00_scope.md R15, spec/30_encoding.md R301). -/

namespace Sys2Proof.Machine

theorem eq_nib_iff_uval_eq {x : Nibble} {v : Nat} (hv : v ≤ 15) : x = nib v ↔ uval x = v := by
  constructor
  · rintro rfl
    exact uval_nib_of_le hv
  · rintro rfl
    exact (nib_uval x).symm

/-- The sign Bit says whether the unsigned value is 8 or more. -/
theorem bval_n0_eq_uval_div (x : Nibble) : bval x.n0 = uval x / 8 := by
  have h1 := bval_le_one x.n1
  have h2 := bval_le_one x.n2
  have h3 := bval_le_one x.n3
  unfold uval
  omega

/-- The negative signed values are the unsigned values of 8 and more, less 16. -/
theorem sval_eq_neg_iff {x : Nibble} {m : Nat} (h1 : 1 ≤ m) (h8 : m ≤ 8) : sval x = -(m : Int) ↔ uval x = 16 - m := by
  have hle := uval_le x
  rw [sval, bval_n0_eq_uval_div]
  omega

/-- Settles O51: the one Nibble of signed value `-m` is the one of unsigned value `16 - m`, which `nib` gives. -/
theorem negativeIntegersAreEncodedModulo16 : Obligations.NegativeIntegersAreEncodedModulo16 := by
  refine ⟨fun m h1 h8 x => ?_, rfl, rfl⟩
  rw [sval_eq_neg_iff h1 h8, eq_nib_iff_uval_eq (by omega), Nat.mod_eq_of_lt (by omega)]

end Sys2Proof.Machine
end

section
/-! The boundary decoder on one argument: its answer to a Bit or a Nibble, and to the first value that is neither 0 nor 1
(spec/30_encoding.md R304 to R306). -/

namespace Sys2Proof.Machine

theorem exists_eq_bitValue {v : Value} (h : v = 0 ∨ v = 1) : ∃ b, v = bitValue b := by
  obtain rfl | rfl := h
  · exact ⟨false, rfl⟩
  · exact ⟨true, rfl⟩

@[simp] theorem bitOf_bitValue (b : Bit) : bitOf (bitValue b) = some b := bitOf_bval b

@[simp] theorem decodeElement_bitValue (n : ArgName) (i : Fin 4) (b : Bit) : decodeElement n i (bitValue b) = .ok b := by
  simp only [decodeElement, bitOf_bitValue]

@[simp] theorem decodeBit_bitValue (n : ArgName) (b : Bit) : decodeBit n (bitValue b) = .ok b := by
  simp only [decodeBit, bitOf_bitValue]

@[simp] theorem decodeOp_bitValue (b : Bit) : decodeOp (bitValue b) = .ok b := by
  simp only [decodeOp, bitOf_bitValue]

theorem decodeElement_of_nonBit (n : ArgName) (i : Fin 4) {v : Value} (h : v ≠ 0 ∧ v ≠ 1) :
    decodeElement n i v = .error (.invalidBit n (some i)) := by
  simp only [decodeElement, bitOf_eq_none.2 h]

theorem decodeBit_of_nonBit (n : ArgName) {v : Value} (h : v ≠ 0 ∧ v ≠ 1) :
    decodeBit n v = .error (.invalidBit n none) := by
  simp only [decodeBit, bitOf_eq_none.2 h]

theorem decodeOp_of_nonBit {v : Value} (h : v ≠ 0 ∧ v ≠ 1) : decodeOp v = .error (.invalidOperation v) := by
  simp only [decodeOp, bitOf_eq_none.2 h]

theorem checkLength_of_length_eq (n : ArgName) {vs : List Value} (h : vs.length = 4) : checkLength n vs = .ok () :=
  if_pos h

theorem checkLength_of_length_ne (n : ArgName) {vs : List Value} (h : vs.length ≠ 4) :
    checkLength n vs = .error (.invalidLength n vs.length) :=
  if_neg h

theorem decodeNibble_of_length_ne (n : ArgName) {vs : List Value} (h : vs.length ≠ 4) :
    decodeNibble n vs = .error (.invalidLength n vs.length) := by
  rw [decodeNibble, checkLength_of_length_ne n h]
  rfl

theorem decodeNibble_of_length_eq (n : ArgName) {vs : List Value} (h : vs.length = 4) :
    decodeNibble n vs = decodeElements n vs := by
  rw [decodeNibble, checkLength_of_length_eq n h]
  rfl

/-- Four Bits as software values are a Nibble's. -/
theorem exists_eq_nibbleValues {vs : List Value} (hlen : vs.length = 4) (hbits : ∀ v ∈ vs, v = 0 ∨ v = 1) :
    ∃ x, vs = nibbleValues x := by
  match vs, hlen with
  | [v0, v1, v2, v3], _ =>
    obtain ⟨b0, rfl⟩ := exists_eq_bitValue (hbits v0 (by simp))
    obtain ⟨b1, rfl⟩ := exists_eq_bitValue (hbits v1 (by simp))
    obtain ⟨b2, rfl⟩ := exists_eq_bitValue (hbits v2 (by simp))
    obtain ⟨b3, rfl⟩ := exists_eq_bitValue (hbits v3 (by simp))
    exact ⟨⟨b0, b1, b2, b3⟩, rfl⟩

@[simp] theorem nibbleValues_length (x : Nibble) : (nibbleValues x).length = 4 := rfl

/-- R304: index 0 is the most significant position. -/
theorem nibbleValues_getElem? (x : Nibble) (i : Fin 4) :
    (nibbleValues x)[i.val]? = some (bitValue (position x (3 - i))) := by
  fin_cases i <;> rfl

@[simp] theorem decodeElements_nibbleValues (n : ArgName) (x : Nibble) : decodeElements n (nibbleValues x) = .ok x := by
  simp only [nibbleValues, decodeElements, decodeElement_bitValue]
  rfl

/-- The element at the index `FirstNonBit` names is neither 0 nor 1. -/
theorem FirstNonBit.nonBit {vs : List Value} {k : Fin 4} (h : FirstNonBit vs k) {v : Value} (hv : vs[k.val]? = some v) :
    v ≠ 0 ∧ v ≠ 1 := by
  obtain ⟨⟨w, hw, hne⟩, -⟩ := h
  rw [hv] at hw
  cases hw
  exact hne

/-- The elements before it are Bits. -/
theorem FirstNonBit.exists_bit {vs : List Value} {k : Fin 4} (h : FirstNonBit vs k) (j : Fin 4) (hj : j < k) {v : Value}
    (hv : vs[j.val]? = some v) : ∃ b, v = bitValue b := by
  obtain ⟨-, hbefore⟩ := h
  have hbit := hbefore j hj
  simp only [hv, Option.some.injEq] at hbit
  exact exists_eq_bitValue hbit

/-- The elements are read from index 0 on, up to the first that is not a Bit. -/
theorem decodeElements_of_firstNonBit (n : ArgName) {vs : List Value} {k : Fin 4} (hlen : vs.length = 4)
    (h : FirstNonBit vs k) : decodeElements n vs = .error (.invalidBit n (some k)) := by
  match vs, hlen, k with
  | [v0, v1, v2, v3], _, 0 =>
    simp only [decodeElements, decodeElement_of_nonBit n 0 (h.nonBit rfl)]
    rfl
  | [v0, v1, v2, v3], _, 1 =>
    obtain ⟨b0, rfl⟩ := h.exists_bit 0 (by decide) rfl
    simp only [decodeElements, decodeElement_bitValue, decodeElement_of_nonBit n 1 (h.nonBit rfl)]
    rfl
  | [v0, v1, v2, v3], _, 2 =>
    obtain ⟨b0, rfl⟩ := h.exists_bit 0 (by decide) rfl
    obtain ⟨b1, rfl⟩ := h.exists_bit 1 (by decide) rfl
    simp only [decodeElements, decodeElement_bitValue, decodeElement_of_nonBit n 2 (h.nonBit rfl)]
    rfl
  | [v0, v1, v2, v3], _, 3 =>
    obtain ⟨b0, rfl⟩ := h.exists_bit 0 (by decide) rfl
    obtain ⟨b1, rfl⟩ := h.exists_bit 1 (by decide) rfl
    obtain ⟨b2, rfl⟩ := h.exists_bit 2 (by decide) rfl
    simp only [decodeElements, decodeElement_bitValue, decodeElement_of_nonBit n 3 (h.nonBit rfl)]
    rfl

/-- Settles O36: the length check comes first, then the elements in order; four Bits are some Nibble's values. -/
theorem nibbleArgumentsAreDecoded : Obligations.NibbleArgumentsAreDecoded := by
  refine fun n vs => ⟨decodeNibble_of_length_ne n, fun k hlen hk => ?_, fun hlen hbits => ?_⟩
  · rw [decodeNibble_of_length_eq n hlen, decodeElements_of_firstNonBit n hlen hk]
  · obtain ⟨x, rfl⟩ := exists_eq_nibbleValues hlen hbits
    exact ⟨x, by rw [decodeNibble_of_length_eq n hlen, decodeElements_nibbleValues], nibbleValues_getElem? x⟩

end Sys2Proof.Machine
end

section
/-! Calls of `add4` and `add_subtract` with Nibbles for a and b: the last argument alone decides the answer
(spec/30_encoding.md R302, R305, R306). -/

namespace Sys2Proof.Machine

theorem decodeCarryIn_bitValue (b : Bit) : decodeCarryIn (some (bitValue b)) = .ok b := decodeBit_bitValue .cin b

theorem decodeCarryIn_of_nonBit {v : Value} (h : v ≠ 0 ∧ v ≠ 1) :
    decodeCarryIn (some v) = .error (.invalidBit .cin none) :=
  decodeBit_of_nonBit .cin h

theorem entryAdd4_nibbleValues (x y : Nibble) (cin : Option Value) :
    entryAdd4 (nibbleValues x) (nibbleValues y) cin = (decodeCarryIn cin).map (.add4 x y) := by
  simp only [entryAdd4, checkLength_of_length_eq _ (nibbleValues_length _), decodeElements_nibbleValues]
  cases decodeCarryIn cin <;> rfl

/-- The call is what the pseudo form ADDSUB expands to (spec/30_encoding.md R315). -/
theorem entryAddSubtract_nibbleValues (x y : Nibble) (op : Value) :
    entryAddSubtract (nibbleValues x) (nibbleValues y) op = (decodeOp op).map fun o => (Line.addsub x y o).expand := by
  simp only [entryAddSubtract, checkLength_of_length_eq _ (nibbleValues_length _), decodeElements_nibbleValues]
  cases decodeOp op with
  | error e => rfl
  | ok o => cases o <;> rfl

theorem step_add4_of_carryIn_ok {cin : Option Value} {c : Bit} (h : decodeCarryIn cin = .ok c) (x y : Nibble)
    (later : List Call) (old : Reply) :
    step ⟨(), .entry (.add4 (nibbleValues x) (nibbleValues y) cin) :: later, old⟩ =
      exec (.add4 x y c) ⟨(), later, old⟩ :=
  step_entry_of_run (by rw [decodeEntry, entryAdd4_nibbleValues, h]; rfl) () later old

theorem step_add4_of_carryIn_error {cin : Option Value} {e : BoundaryError} (h : decodeCarryIn cin = .error e)
    (x y : Nibble) (later : List Call) (old : Reply) :
    step ⟨(), .entry (.add4 (nibbleValues x) (nibbleValues y) cin) :: later, old⟩ = .next ⟨(), later, .error e⟩ :=
  step_entry_of_error (by rw [decodeEntry, entryAdd4_nibbleValues, h]; rfl) () later old

theorem step_addSubtract_of_op_ok {op : Value} {o : Bit} (h : decodeOp op = .ok o) (x y : Nibble)
    (later : List Call) (old : Reply) :
    step ⟨(), .entry (.addSubtract (nibbleValues x) (nibbleValues y) op) :: later, old⟩ =
      exec (Line.addsub x y o).expand ⟨(), later, old⟩ :=
  step_entry_of_run (by rw [decodeEntry, entryAddSubtract_nibbleValues, h]; rfl) () later old

theorem step_addSubtract_of_op_error {op : Value} {e : BoundaryError} (h : decodeOp op = .error e) (x y : Nibble)
    (later : List Call) (old : Reply) :
    step ⟨(), .entry (.addSubtract (nibbleValues x) (nibbleValues y) op) :: later, old⟩ = .next ⟨(), later, .error e⟩ :=
  step_entry_of_error (by rw [decodeEntry, entryAddSubtract_nibbleValues, h]; rfl) () later old

/-- Settles O38: `decodeCarryIn` on no value, on the two Bits and on any other value. -/
theorem carryInArgumentIsDecoded : Obligations.CarryInArgumentIsDecoded := fun x y later old =>
  ⟨step_add4_of_carryIn_ok rfl x y later old,
    step_add4_of_carryIn_ok (decodeCarryIn_bitValue false) x y later old,
    step_add4_of_carryIn_ok (decodeCarryIn_bitValue true) x y later old,
    fun _ h0 h1 => step_add4_of_carryIn_error (decodeCarryIn_of_nonBit ⟨h0, h1⟩) x y later old⟩

/-- Settles O39: `decodeOp` on the two Bits and on any other value. -/
theorem operationSelectorIsDecoded : Obligations.OperationSelectorIsDecoded := fun x y later old =>
  ⟨step_addSubtract_of_op_ok (decodeOp_bitValue false) x y later old,
    step_addSubtract_of_op_ok (decodeOp_bitValue true) x y later old,
    fun _ h0 h1 => step_addSubtract_of_op_error (decodeOp_of_nonBit ⟨h0, h1⟩) x y later old⟩

theorem exec_add (a b : Nibble) (s : State) :
    exec (.add a b) s = deliver (.addSub (addSubtract a b false).1 (addSubtract a b false).2) s := rfl

theorem exec_sub (a b : Nibble) (s : State) :
    exec (.sub a b) s = deliver (.addSub (addSubtract a b true).1 (addSubtract a b true).2) s := rfl

/-- R704: the difference modulo 16. -/
theorem uval_addSubtract_true (a b : Nibble) :
    (uval (addSubtract a b true).1 : Int) = ((uval a : Int) - (uval b : Int)) % 16 := by
  have hsum := concat_addSubtract_true a b
  have hle := uval_le (addSubtract a b true).1
  have hb := uval_le b
  simp only [concat] at hsum
  omega

/-- Settles O17: op = 0 runs ADD and op = 1 runs SUB, whose results are the sum and the difference modulo 16. -/
theorem selectorDenotesAdditionAndSubtraction : Obligations.SelectorDenotesAdditionAndSubtraction := by
  intro x y later old
  obtain ⟨hadd, hsub, -⟩ := operationSelectorIsDecoded x y later old
  refine ⟨⟨(addSubtract x y false).1, (addSubtract x y false).2, ?_, ?_⟩,
    ⟨(addSubtract x y true).1, (addSubtract x y true).2, ?_, uval_addSubtract_true x y⟩⟩
  · rw [hadd, exec_add, deliver_eq_next]
  · rw [uval_addSubtract_false]
    push_cast
    rfl
  · rw [hsub, exec_sub, deliver_eq_next]

end Sys2Proof.Machine
end

section
/-! The five gates as operations (spec/40_gates.md R407). -/

namespace Sys2Proof.Machine

/-- A gate's operation delivers one Bit, computed from its operands alone. -/
theorem exec_eq_deliver_gate {i : Instr} (h : i.fn ∈ [Fn.and, .or, .not, .xor, .nand]) :
    ∃ y : Bit, ∀ s : State, exec i s = deliver (.gate y) s := by
  cases i with
  | and a b => exact ⟨andGate a b, fun _ => rfl⟩
  | or a b => exact ⟨orGate a b, fun _ => rfl⟩
  | not a => exact ⟨notGate a, fun _ => rfl⟩
  | xor a b => exact ⟨xorGate a b, fun _ => rfl⟩
  | nand a b => exact ⟨nandGate a b, fun _ => rfl⟩
  | _ => simp [Instr.fn] at h

/-- What a delivery leaves to be read back: its outputs. -/
theorem deliver_inj {o o' : Outputs} {s : State} : deliver o s = deliver o' s ↔ o = o' := by
  simp only [deliver_eq_next, Host.Outcome.next.injEq, State.mk.injEq, Reply.outputs.injEq, true_and]

/-- Settles O3: a gate delivers its Bit from every state, and any one state's next state tells which Bit it is. -/
theorem gatesArePureAndTotal : Obligations.GatesArePureAndTotal := by
  intro i hgate
  obtain ⟨y, hy⟩ := exec_eq_deliver_gate hgate
  refine ⟨y, fun s => by rw [hy, deliver_eq_next], fun y' hy' => ?_⟩
  have hreset : deliver (.gate y') State.reset = deliver (.gate y) State.reset := by
    rw [← hy, hy', deliver_eq_next]
  exact Outputs.gate.inj (deliver_inj.mp hreset)

end Sys2Proof.Machine
end

section
/-! The boundary decoder on a whole call: it lets a call run exactly when its arguments are well-formed
(spec/30_encoding.md R304 to R307, spec/60_exceptions.md R902). -/

namespace Sys2Proof.Machine

/-- A chain of checks succeeds exactly when its first check does and then the rest. -/
theorem bind_eq_ok_iff {ε α β : Type} {x : Except ε α} {f : α → Except ε β} {b : β} :
    (x >>= f) = .ok b ↔ ∃ a, x = .ok a ∧ f a = .ok b := by
  constructor
  · intro h
    cases x with
    | ok a => exact ⟨a, rfl, h⟩
    | error e => cases h
  · rintro ⟨a, rfl, h⟩
    exact h

/-- A last step that cannot fail does not count. -/
theorem exists_bind_pure_eq_ok_iff {ε α β : Type} {x : Except ε α} {f : α → β} :
    (∃ b, (x >>= fun a => pure (f a)) = .ok b) ↔ ∃ a, x = .ok a := by
  cases x with
  | ok a => exact ⟨fun _ => ⟨a, rfl⟩, fun _ => ⟨f a, rfl⟩⟩
  | error e => exact ⟨nofun, nofun⟩

/-! One argument: the checks succeed on a Bit's and a Nibble's values alone, which the preconditions ask for. -/

theorem bitOf_eq_some_iff {v : Value} {b : Bit} : bitOf v = some b ↔ v = bitValue b := by
  refine ⟨bitOf_eq_some, ?_⟩
  rintro rfl
  exact bitOf_bitValue b

@[simp] theorem isBit_bitValue (b : Bit) : Value.isBit (bitValue b) = true := isBit_iff_bitOf.2 ⟨b, bitOf_bitValue b⟩

@[simp] theorem isNibble_nibbleValues (x : Nibble) : Value.isNibble (nibbleValues x) = true := by
  simp [Value.isNibble, Config.nibbleWidth, nibbleValues]

theorem exists_eq_nibbleValues_of_isNibble {vs : List Value} (h : Value.isNibble vs = true) :
    ∃ x, vs = nibbleValues x := by
  obtain ⟨hlen, hbits⟩ := isNibble_iff.1 h
  exact exists_eq_nibbleValues hlen hbits

theorem decodeElement_eq_ok_iff {n : ArgName} {i : Fin 4} {v : Value} {b : Bit} :
    decodeElement n i v = .ok b ↔ v = bitValue b := by
  rw [← bitOf_eq_some_iff, decodeElement]
  cases bitOf v <;> simp

theorem exists_decodeBit_eq_ok_iff {n : ArgName} {v : Value} :
    (∃ b, decodeBit n v = .ok b) ↔ Value.isBit v = true := by
  rw [isBit_iff_bitOf, decodeBit]
  cases bitOf v <;> simp

theorem exists_decodeOp_eq_ok_iff {v : Value} : (∃ b, decodeOp v = .ok b) ↔ Value.isBit v = true := by
  rw [isBit_iff_bitOf, decodeOp]
  cases bitOf v <;> simp

/-- R305: no carry-in is as good as a Bit. -/
theorem exists_decodeCarryIn_eq_ok_iff {cin : Option Value} :
    (∃ b, decodeCarryIn cin = .ok b) ↔ cin.all Value.isBit = true := by
  cases cin with
  | none => simp [decodeCarryIn]
  | some v => exact exists_decodeBit_eq_ok_iff

theorem decodeElements_eq_ok_iff {n : ArgName} {vs : List Value} {x : Nibble} :
    decodeElements n vs = .ok x ↔ vs = nibbleValues x := by
  constructor
  · intro h
    unfold decodeElements at h
    split at h
    · simp only [bind_eq_ok_iff, decodeElement_eq_ok_iff] at h
      obtain ⟨b0, rfl, b1, rfl, b2, rfl, b3, rfl, h⟩ := h
      cases h
      rfl
    · cases h
  · rintro rfl
    exact decodeElements_nibbleValues n x

theorem decodeNibble_eq_ok_iff {n : ArgName} {vs : List Value} {x : Nibble} :
    decodeNibble n vs = .ok x ↔ vs = nibbleValues x := by
  simp only [decodeNibble, bind_eq_ok_iff, decodeElements_eq_ok_iff]
  constructor
  · rintro ⟨_, _, h⟩
    exact h
  · rintro rfl
    exact ⟨(), checkLength_of_length_eq n rfl, rfl⟩

theorem nibbleOf_eq_some_iff {vs : List Value} {x : Nibble} : nibbleOf vs = some x ↔ vs = nibbleValues x := by
  rw [← decodeNibble_eq_ok_iff (n := .x), nibbleOf]
  cases decodeNibble .x vs <;> simp

theorem exists_nibbleOf_eq_some_iff {vs : List Value} : (∃ x, nibbleOf vs = some x) ↔ Value.isNibble vs = true := by
  simp only [nibbleOf_eq_some_iff]
  refine ⟨?_, exists_eq_nibbleValues_of_isNibble⟩
  rintro ⟨x, rfl⟩
  exact isNibble_nibbleValues x

theorem exists_decodeNibble_eq_ok_iff {n : ArgName} {vs : List Value} :
    (∃ x, decodeNibble n vs = .ok x) ↔ Value.isNibble vs = true := by
  simp only [decodeNibble_eq_ok_iff, ← nibbleOf_eq_some_iff, exists_nibbleOf_eq_some_iff]

theorem exists_flagOf_eq_some_iff {s : FlagArg} : (∃ b, flagOf s = some b) ↔ s.isBoolean = true := by
  cases s <;> simp [flagOf, FlagArg.isBoolean]

/-! One call. -/

theorem exists_entryG1_eq_some_iff {mk : Bit → Instr} {a : Value} :
    (∃ i, entryG1 mk a = some i) ↔ Value.isBit a = true := by
  rw [isBit_iff_bitOf, entryG1]
  cases bitOf a <;> simp

theorem exists_entryG2_eq_some_iff {mk : Bit → Bit → Instr} {a b : Value} :
    (∃ i, entryG2 mk a b = some i) ↔ Value.isBit a = true ∧ Value.isBit b = true := by
  rw [isBit_iff_bitOf, isBit_iff_bitOf, entryG2]
  cases bitOf a <;> cases bitOf b <;> simp

theorem exists_entryG3_eq_some_iff {mk : Bit → Bit → Bit → Instr} {a b c : Value} :
    (∃ i, entryG3 mk a b c = some i) ↔ (Value.isBit a = true ∧ Value.isBit b = true) ∧ Value.isBit c = true := by
  rw [isBit_iff_bitOf, isBit_iff_bitOf, isBit_iff_bitOf, entryG3]
  cases bitOf a <;> cases bitOf b <;> cases bitOf c <;> simp

theorem exists_entryToSigned_eq_some_iff {r : List Value} {s : FlagArg} {c : Value} :
    (∃ i, entryToSigned r s c = some i) ↔ (Value.isNibble r = true ∧ s.isBoolean = true) ∧ Value.isBit c = true := by
  rw [← exists_nibbleOf_eq_some_iff, ← exists_flagOf_eq_some_iff, isBit_iff_bitOf, entryToSigned]
  cases nibbleOf r <;> cases flagOf s <;> cases bitOf c <;> simp

theorem exists_entryOnes_eq_ok_iff {x : List Value} : (∃ i, entryOnes x = .ok i) ↔ Value.isNibble x = true :=
  exists_bind_pure_eq_ok_iff.trans exists_decodeNibble_eq_ok_iff

theorem exists_entryTwos_eq_ok_iff {x : List Value} : (∃ i, entryTwos x = .ok i) ↔ Value.isNibble x = true :=
  exists_bind_pure_eq_ok_iff.trans exists_decodeNibble_eq_ok_iff

theorem exists_entryAdd4_eq_ok_iff {a b : List Value} {cin : Option Value} :
    (∃ i, entryAdd4 a b cin = .ok i) ↔
      (Value.isNibble a = true ∧ Value.isNibble b = true) ∧ cin.all Value.isBit = true := by
  constructor
  · rintro ⟨i, h⟩
    simp only [entryAdd4, bind_eq_ok_iff, decodeElements_eq_ok_iff] at h
    obtain ⟨_, _, _, _, x, rfl, y, rfl, c, hc, _⟩ := h
    exact ⟨⟨isNibble_nibbleValues x, isNibble_nibbleValues y⟩, exists_decodeCarryIn_eq_ok_iff.1 ⟨c, hc⟩⟩
  · rintro ⟨⟨ha, hb⟩, hcin⟩
    obtain ⟨x, rfl⟩ := exists_eq_nibbleValues_of_isNibble ha
    obtain ⟨y, rfl⟩ := exists_eq_nibbleValues_of_isNibble hb
    obtain ⟨c, hc⟩ := exists_decodeCarryIn_eq_ok_iff.2 hcin
    exact ⟨.add4 x y c, by rw [entryAdd4_nibbleValues, hc]; rfl⟩

theorem exists_entryAddSubtract_eq_ok_iff {a b : List Value} {op : Value} :
    (∃ i, entryAddSubtract a b op = .ok i) ↔
      (Value.isNibble a = true ∧ Value.isNibble b = true) ∧ Value.isBit op = true := by
  constructor
  · rintro ⟨i, h⟩
    simp only [entryAddSubtract, bind_eq_ok_iff, decodeElements_eq_ok_iff] at h
    obtain ⟨o, ho, _, _, _, _, x, rfl, y, rfl, _⟩ := h
    exact ⟨⟨isNibble_nibbleValues x, isNibble_nibbleValues y⟩, exists_decodeOp_eq_ok_iff.1 ⟨o, ho⟩⟩
  · rintro ⟨⟨ha, hb⟩, hop⟩
    obtain ⟨x, rfl⟩ := exists_eq_nibbleValues_of_isNibble ha
    obtain ⟨y, rfl⟩ := exists_eq_nibbleValues_of_isNibble hb
    obtain ⟨o, ho⟩ := exists_decodeOp_eq_ok_iff.2 hop
    exact ⟨(Line.addsub x y o).expand, by rw [entryAddSubtract_nibbleValues, ho]; rfl⟩

theorem ofExcept_eq_run_iff {x : Except BoundaryError Instr} {i : Instr} :
    Admission.ofExcept x = .run i ↔ x = .ok i := by
  cases x <;> simp [Admission.ofExcept]

theorem ofOption_eq_run_iff {r : Refusal} {x : Option Instr} {i : Instr} :
    Admission.ofOption r x = .run i ↔ x = some i := by
  cases x <;> simp [Admission.ofOption]

/-- Everything the preconditions mean: they are kept exactly by the calls that the boundary lets run. -/
theorem exists_decodeEntry_eq_run_iff_wellFormed {c : EntryCall} :
    (∃ i, decodeEntry c = .run i) ↔ c.wellFormed = true := by
  cases c <;> simp only [decodeEntry, ofOption_eq_run_iff, ofExcept_eq_run_iff, EntryCall.wellFormed, Bool.and_eq_true]
  case not => exact exists_entryG1_eq_some_iff
  case fa => exact exists_entryG3_eq_some_iff
  case add4 => exact exists_entryAdd4_eq_ok_iff
  case onesComplement => exact exists_entryOnes_eq_ok_iff
  case twosComplement => exact exists_entryTwos_eq_ok_iff
  case addSubtract => exact exists_entryAddSubtract_eq_ok_iff
  case toSignedValue => exact exists_entryToSigned_eq_some_iff
  all_goals exact exists_entryG2_eq_some_iff

theorem decodeEntry_ne_refuse_of_checked {c : EntryCall} (h : c.checked = true) (r : Refusal) :
    decodeEntry c ≠ .refuse r := by
  cases c with
  | add4 | onesComplement | twosComplement | addSubtract => exact ofExcept_ne_refuse _ r
  | _ => cases h

/-- R902: what a checked entry point does not let run, it reports. -/
theorem exists_decodeEntry_eq_error {c : EntryCall} (hchecked : c.checked = true) (hbroken : c.wellFormed = false) :
    ∃ e, decodeEntry c = .error e := by
  cases h : decodeEntry c with
  | run i =>
    have hkept := exists_decodeEntry_eq_run_iff_wellFormed.1 ⟨i, h⟩
    rw [hbroken] at hkept
    cases hkept
  | error e => exact ⟨e, rfl⟩
  | refuse r => exact absurd h (decodeEntry_ne_refuse_of_checked hchecked r)

theorem step_entry_of_wellFormed {c : EntryCall} (h : c.wellFormed = true) (k : CoreState) (later : List Call)
    (old : Reply) : ∃ o : Outputs, step ⟨k, .entry c :: later, old⟩ = .next ⟨k, later, .outputs o⟩ := by
  obtain ⟨i, hrun⟩ := exists_decodeEntry_eq_run_iff_wellFormed.2 h
  obtain ⟨o, ho⟩ := exec_eq_deliver i
  exact ⟨o, by rw [step_entry_of_run hrun, ho, deliver_eq_next]⟩

theorem step_entry_of_broken {c : EntryCall} (hchecked : c.checked = true) (hbroken : c.wellFormed = false)
    (k : CoreState) (later : List Call) (old : Reply) :
    ∃ e : BoundaryError, step ⟨k, .entry c :: later, old⟩ = .next ⟨k, later, .error e⟩ := by
  obtain ⟨e, he⟩ := exists_decodeEntry_eq_error hchecked hbroken
  exact ⟨e, step_entry_of_error he k later old⟩

/-- Settles O42: the three components are checked, so a call of theirs runs or is reported; the next state tells which
error it is. -/
theorem checkedCallsAreAllOrNothing : Obligations.CheckedCallsAreAllOrNothing := by
  intro c later old hc
  have hchecked : c.checked = true := by
    obtain ⟨a, b, cin, rfl⟩ | ⟨x, rfl⟩ | ⟨a, b, op, rfl⟩ := hc <;> rfl
  refine ⟨fun hkept => step_entry_of_wellFormed hkept () later old, fun hbroken => ?_⟩
  obtain ⟨e, he⟩ := step_entry_of_broken hchecked hbroken () later old
  refine ⟨e, he, fun e' he' => ?_⟩
  simpa [he, eq_comm] using he'

end Sys2Proof.Machine
end

section
/-! Runs of calls, and the step after an error (spec/60_exceptions.md R908, R909). -/

namespace Sys2Proof.Machine

/-- R111: what was returned last does not matter to the next evaluation. -/
theorem step_congr_reply (calls : List Call) (k : CoreState) (old old' : Reply) :
    step ⟨k, calls, old⟩ = step ⟨k, calls, old'⟩ := by
  cases calls with
  | nil => rfl
  | cons c later =>
    obtain ⟨-, hanswer⟩ := noEvaluationRemembersAnother
    obtain ⟨left, reply, h⟩ | ⟨reason, h⟩ := hanswer c <;> rw [h, h]

/-- Settles O44: `raise` writes the reply alone, and no step reads it. -/
theorem errorsLeaveNothingBehind : Obligations.ErrorsLeaveNothingBehind := fun _ later old e h =>
  ⟨step_entry_of_error h () later old, step_congr_reply later () (.error e) old⟩

/-- R902, R905: a call that is answered is taken, and a reply returned. -/
theorem step_of_answered {c : Call} (h : Answered c) (k : CoreState) (later : List Call) (old : Reply) :
    ∃ r : Reply, r ≠ .nothing ∧ step ⟨k, c :: later, old⟩ = .next ⟨k, later, r⟩ := by
  cases c with
  | words bits => cases h
  | entry c =>
    cases hwf : c.wellFormed with
    | true =>
      obtain ⟨o, ho⟩ := step_entry_of_wellFormed hwf k later old
      exact ⟨.outputs o, nofun, ho⟩
    | false =>
      have hchecked : c.checked = true := h.resolve_right (by simp [hwf])
      obtain ⟨e, he⟩ := step_entry_of_broken hchecked hwf k later old
      exact ⟨.error e, nofun, he⟩
  | line l =>
    obtain ⟨o, ho⟩ := exec_eq_deliver l.expand
    exact ⟨.outputs o, nofun, by rw [step_line, ho, deliver_eq_next]⟩
  | topLevel A B OP => exact ⟨.outputs _, nofun, step_topLevel A B OP k later old⟩

theorem run_succ_of_step {M : Host.Core} {s s' : M.State} (h : M.step s = .next s') (n : Nat) :
    M.run (n + 1) s = M.run n s' := by
  rw [Host.Core.run, h]

/-- The induction's statement: it says beside the last state that a run ends without a reply only if it began without
one and made no call. -/
theorem run_of_answered (calls : List Call) (k : CoreState) (old : Reply) (h : ∀ c ∈ calls, Answered c) :
    ∃ r : Reply, Host.Core.run Sys2Proof.core calls.length (⟨k, calls, old⟩ : State) = .next (⟨k, [], r⟩ : State) ∧
      (r = .nothing → calls = [] ∧ old = .nothing) := by
  induction calls generalizing old with
  | nil => exact ⟨old, rfl, fun hold => ⟨rfl, hold⟩⟩
  | cons c later ih =>
    obtain ⟨hc, hlater⟩ := List.forall_mem_cons.1 h
    obtain ⟨r, hr, hstep⟩ := step_of_answered hc k later old
    obtain ⟨r', hrun, hr'⟩ := ih r hlater
    exact ⟨r', (run_succ_of_step (M := Sys2Proof.core) hstep later.length).trans hrun, fun h => absurd (hr' h).2 hr⟩

/-- Settles O45: by induction over the calls, each of which one step answers. -/
theorem callProgramsRunToTheEnd : Obligations.CallProgramsRunToTheEnd := by
  intro calls old h
  obtain ⟨r, hrun, hr⟩ := run_of_answered calls () old h
  exact ⟨r, hrun, fun hne hnothing => hne (hr hnothing).1⟩

end Sys2Proof.Machine
end

section
/-! The decoder and the encoder are inverse to each other (spec/30_encoding.md R309 to R312). -/

namespace Sys2Proof

/-! Each reader answers as soon as its fields are there. -/

theorem exists_readG1_eq_some {mk : Bit → Instr} :
    ∀ {bits : Bits}, 1 ≤ bits.length → ∃ read, readG1 mk bits = some read
  | _ :: _, _ => ⟨_, rfl⟩

theorem exists_readG2_eq_some {mk : Bit → Bit → Instr} :
    ∀ {bits : Bits}, 2 ≤ bits.length → ∃ read, readG2 mk bits = some read
  | _ :: _ :: _, _ => ⟨_, rfl⟩

theorem exists_readG3_eq_some {mk : Bit → Bit → Bit → Instr} :
    ∀ {bits : Bits}, 3 ≤ bits.length → ∃ read, readG3 mk bits = some read
  | _ :: _ :: _ :: _, _ => ⟨_, rfl⟩

/-- A Nibble field takes four Bits. -/
theorem exists_readNibble_eq_some :
    ∀ {bits : Bits}, 4 ≤ bits.length → ∃ x rest, readNibble bits = some (x, rest) ∧ bits.length = 4 + rest.length
  | _ :: _ :: _ :: _ :: rest, _ => ⟨_, rest, rfl, by simp only [List.length_cons]; omega⟩

theorem exists_readN1_eq_some {mk : Nibble → Instr} {bits : Bits} (h : 4 ≤ bits.length) :
    ∃ read, readN1 mk bits = some read := by
  obtain ⟨x, rest, hx, -⟩ := exists_readNibble_eq_some h
  exact ⟨(mk x, rest), by rw [readN1, hx]⟩

theorem exists_readN2_eq_some {mk : Nibble → Nibble → Instr} {bits : Bits} (h : 8 ≤ bits.length) :
    ∃ read, readN2 mk bits = some read := by
  obtain ⟨a, more, ha, hlen⟩ := exists_readNibble_eq_some (bits := bits) (by omega)
  simp only [readN2, ha]
  exact exists_readN1_eq_some (by omega)

theorem exists_readN2C_eq_some {mk : Nibble → Nibble → Bit → Instr} {bits : Bits} (h : 9 ≤ bits.length) :
    ∃ read, readN2C mk bits = some read := by
  obtain ⟨a, more, ha, hlen⟩ := exists_readNibble_eq_some (bits := bits) (by omega)
  obtain ⟨b, more', hb, hlen'⟩ := exists_readNibble_eq_some (bits := more) (by omega)
  simp only [readN2C, ha, hb]
  exact exists_readG1_eq_some (by omega)

theorem exists_readI_eq_some {mk : Nibble → Bit → Bit → Instr} {bits : Bits} (h : 6 ≤ bits.length) :
    ∃ read, readI mk bits = some read := by
  obtain ⟨r, more, hr, hlen⟩ := exists_readNibble_eq_some (bits := bits) (by omega)
  simp only [readI, hr]
  exact exists_readG2_eq_some (by omega)

/-- The fields of a format are its width less the four Bits of FN. -/
theorem exists_readFields_eq_some {fn : Fn} {fields : Bits} (h : fn.format.width ≤ fields.length + 4) :
    ∃ read, readFields fn fields = some read := by
  cases fn <;> simp only [Fn.format, Format.width, readFields] at h ⊢
  case not => exact exists_readG1_eq_some (by omega)
  case fa => exact exists_readG3_eq_some (by omega)
  case add4 => exact exists_readN2C_eq_some (by omega)
  case ones | twos => exact exists_readN1_eq_some (by omega)
  case add | sub => exact exists_readN2_eq_some (by omega)
  case toSigned => exact exists_readI_eq_some (by omega)
  all_goals exact exists_readG2_eq_some (by omega)

/-- An instruction's fields are read back, whatever follows them. -/
theorem readFields_fields (i : Instr) (rest : Bits) : readFields i.fn (i.fields ++ rest) = some (i, rest) := by
  cases i <;> rfl

/-- A dispatch code sends the decoder to the fields of its operation. -/
theorem decode_of_fnOf {f3 f2 f1 f0 : Bit} {fn : Fn} {fields : Bits} {read : Instr × Bits}
    (hfn : fnOf f3 f2 f1 f0 = some fn) (hread : readFields fn fields = some read) :
    decode (f3 :: f2 :: f1 :: f0 :: fields) = .ok read := by
  simp only [decode, hfn, hread]

/-- Everything the decoder can accept: an assigned FN and then fields that its operation reads. -/
theorem decode_eq_ok {bits : Bits} {read : Instr × Bits} (h : decode bits = .ok read) :
    ∃ f3 f2 f1 f0 fields fn, bits = f3 :: f2 :: f1 :: f0 :: fields ∧ fnOf f3 f2 f1 f0 = some fn ∧
      readFields fn fields = some read := by
  unfold decode at h
  split at h
  · split at h
    · split at h
      · cases h
        exact ⟨_, _, _, _, _, _, rfl, ‹_›, ‹_›⟩
      · cases h
    · cases h
  · cases h

theorem exists_code_eq (fn : Fn) : ∃ f3 f2 f1 f0, fn.code = [f3, f2, f1, f0] := by
  cases fn <;> exact ⟨_, _, _, _, rfl⟩

theorem decode_encode_append (i : Instr) (rest : Bits) : decode (encode i ++ rest) = .ok (i, rest) := by
  obtain ⟨f3, f2, f1, f0, hcode⟩ := exists_code_eq i.fn
  rw [encode, hcode, List.append_assoc]
  exact decode_of_fnOf (Laws.WordForm.fnOf_code i.fn _ _ _ _ hcode) (readFields_fields i rest)

theorem eq_encode_append_of_decode {bits rest : Bits} {i : Instr} (h : decode bits = .ok (i, rest)) :
    bits = encode i ++ rest := by
  obtain ⟨f3, f2, f1, f0, fields, fn, rfl, hfn, hread⟩ := decode_eq_ok h
  obtain ⟨rfl, rfl⟩ := readFields_eq_some hread
  rw [encode, code_of_fnOf hfn]
  rfl

/-- Settles O27: FN names the operation, whose readers take the fields off again. -/
theorem decodeInvertsEncode : Obligations.DecodeInvertsEncode := decode_encode_append

/-- Settles O28: what the readers accept is the code of an operation and the fields of an instruction of it. -/
theorem encodeInvertsDecode : Obligations.EncodeInvertsDecode := fun _ _ _ => eq_encode_append_of_decode

/-- Settles O29: a decoded word is as wide as its format, and a reader fails on too few Bits alone. -/
theorem decodeAcceptsExactlyTheFormats : Obligations.DecodeAcceptsExactlyTheFormats := by
  intro bits
  constructor
  · rintro ⟨i, rest, h⟩
    obtain ⟨f3, f2, f1, f0, fields, fn, hbits, hfn, hread⟩ := decode_eq_ok h
    obtain ⟨rfl, -⟩ := readFields_eq_some hread
    refine ⟨f3, f2, f1, f0, fields, i.fn, hbits, hfn, ?_⟩
    rw [eq_encode_append_of_decode h, List.length_append, encode_length]
    exact Nat.le_add_right _ _
  · rintro ⟨f3, f2, f1, f0, fields, fn, rfl, hfn, hlen⟩
    obtain ⟨⟨i, rest⟩, hread⟩ := exists_readFields_eq_some (fields := fields) hlen
    exact ⟨i, rest, decode_of_fnOf hfn hread⟩

end Sys2Proof
end

section
/-! What a step that answers has done, and the invariant it keeps (spec/10_state.md R101, spec/44_interpret.md R801,
spec/60_exceptions.md R900 to R904). -/

namespace Sys2Proof.Machine

/-- Everything a step that answers can have done: it took the first call and evaluated an operation or the assembled
block, or reported an error. -/
theorem step_eq_next {s t : State} (h : step s = .next t) : ∃ (c : Call) (later : List Call), s.calls = c :: later ∧
    ((∃ bits i left, c = .words bits ∧ decode bits = .ok (i, left) ∧
        exec i (s.withCalls (remaining left later)) = .next t) ∨
      (∀ bits, c ≠ .words bits) ∧
        ((∃ i, exec i (s.withCalls later) = .next t) ∨
          (∃ e err, decodeEntry e = .error err ∧ t = (s.withCalls later).fail err) ∨
          ∃ A B OP, evalTopLevel A B OP (s.withCalls later) = .next t)) := by
  obtain ⟨k, calls, old⟩ := s
  cases calls with
  | nil => cases h
  | cons c later =>
    refine ⟨c, later, rfl, ?_⟩
    cases c with
    | words bits =>
      cases hdec : decode bits with
      | ok read => exact .inl ⟨bits, read.1, read.2, rfl, hdec, step_words_of_ok hdec k later old ▸ h⟩
      | error e => rw [step_words_of_error hdec] at h; cases h
    | entry e =>
      refine .inr ⟨nofun, ?_⟩
      cases hdec : decodeEntry e with
      | run i => exact .inl ⟨i, step_entry_of_run hdec k later old ▸ h⟩
      | error err =>
        rw [step_entry_of_error hdec] at h
        cases h
        exact .inr (.inl ⟨e, err, hdec, rfl⟩)
      | refuse r => rw [step_entry_of_refuse hdec] at h; cases h
    | line l => exact .inr ⟨nofun, .inl ⟨l.expand, h⟩⟩
    | topLevel A B OP => exact .inr ⟨nofun, .inr (.inr ⟨A, B, OP, h⟩)⟩

theorem calls_of_exec {i : Instr} {s t : State} (h : exec i s = .next t) : t.calls = s.calls := by
  obtain ⟨o, ho⟩ := exec_eq_deliver i
  rw [ho] at h
  cases h
  rfl

theorem calls_of_evalTopLevel {A B : Nibble} {OP : Bit} {s t : State} (h : evalTopLevel A B OP s = .next t) :
    t.calls = s.calls := by
  cases h
  rfl

/-! Legal outputs. -/

theorem halfAdder_legal (a b : Bit) : ¬((halfAdder a b).1 = true ∧ (halfAdder a b).2 = true) := by
  rintro ⟨hsum, hcarry⟩
  have h := halfAdder_sum a b
  have ha := bval_le_one a
  have hb := bval_le_one b
  rw [hsum, hcarry, bval_true] at h
  omega

/-- R801: either path of the interpreter gives an unsigned reading or minus one. -/
theorem toSignedValue_inInterpreterRange (r : Nibble) (isSub c : Bit) : inInterpreterRange (toSignedValue r isSub c) := by
  have hr := uval_le r
  have ht := uval_le (twosComplement r)
  unfold inInterpreterRange Config.interpreterLow Config.interpreterHigh toSignedValue
  split <;> omega

theorem reply_legal_of_exec {i : Instr} {s t : State} (h : exec i s = .next t) : t.reply.Legal := by
  cases i <;> cases h
  case ha a b => exact halfAdder_legal a b
  case toSigned r isSub c => exact toSignedValue_inInterpreterRange r isSub c
  all_goals trivial

theorem reply_legal_of_evalTopLevel {A B : Nibble} {OP : Bit} {s t : State} (h : evalTopLevel A B OP s = .next t) :
    t.reply.Legal := by
  cases h
  exact toSignedValue_inInterpreterRange _ OP _

/-! Legal errors: each check reports legal ones, and a chain of checks reports those of its checks. -/

/-- Whatever error a check reports is legal. -/
def OnlyLegalErrors {α : Type} (x : Except BoundaryError α) : Prop := ∀ e, x = .error e → LegalError e

theorem OnlyLegalErrors.pure {α : Type} (a : α) : OnlyLegalErrors (pure a : Except BoundaryError α) := nofun

theorem OnlyLegalErrors.bind {α β : Type} {x : Except BoundaryError α} {f : α → Except BoundaryError β}
    (hx : OnlyLegalErrors x) (hf : ∀ a, OnlyLegalErrors (f a)) : OnlyLegalErrors (x >>= f) := by
  cases x with
  | ok a => exact hf a
  | error e' => rintro e ⟨⟩; exact hx e' rfl

theorem checkLength_onlyLegalErrors {n : ArgName} (hn : n ≠ .cin) (vs : List Value) :
    OnlyLegalErrors (checkLength n vs) := by
  intro e h
  obtain ⟨l, hl, rfl⟩ := checkLength_error h
  exact ⟨hn, hl⟩

theorem decodeElement_onlyLegalErrors {n : ArgName} (hn : n ≠ .cin) (i : Fin 4) (v : Value) :
    OnlyLegalErrors (decodeElement n i v) := by
  intro e h
  rw [decodeElement_error h]
  simp only [LegalError, hn, reduceCtorEq]

theorem decodeCarryIn_onlyLegalErrors (cin : Option Value) : OnlyLegalErrors (decodeCarryIn cin) := by
  cases cin with
  | none => exact nofun
  | some v =>
    intro e h
    rw [decodeBit_error h]
    exact iff_of_true rfl rfl

theorem decodeOp_onlyLegalErrors (v : Value) : OnlyLegalErrors (decodeOp v) := by
  intro e h
  unfold decodeOp at h
  split at h <;> cases h
  exact bitOf_eq_none.1 ‹_›

theorem decodeElements_onlyLegalErrors {n : ArgName} (hn : n ≠ .cin) (vs : List Value) :
    OnlyLegalErrors (decodeElements n vs) := by
  unfold decodeElements
  split
  · exact .bind (decodeElement_onlyLegalErrors hn 0 _) fun _ => .bind (decodeElement_onlyLegalErrors hn 1 _) fun _ =>
    .bind (decodeElement_onlyLegalErrors hn 2 _) fun _ => .bind (decodeElement_onlyLegalErrors hn 3 _) fun _ => .pure _
  · rename_i hfour
    rintro e ⟨⟩
    refine ⟨hn, fun hlen => ?_⟩
    obtain ⟨v0, v1, v2, v3, rfl⟩ := List.length_eq_four.1 hlen
    exact hfour v0 v1 v2 v3 rfl

theorem decodeNibble_onlyLegalErrors {n : ArgName} (hn : n ≠ .cin) (vs : List Value) :
    OnlyLegalErrors (decodeNibble n vs) :=
  .bind (checkLength_onlyLegalErrors hn vs) fun _ => decodeElements_onlyLegalErrors hn vs

/-- The checks of a and b that `add4` and `add_subtract` share: lengths, then elements (R903); `f` is what comes after. -/
def checkNibbles (a b : List Value) (f : Nibble → Nibble → Except BoundaryError Instr) :
    Except BoundaryError Instr := do
  checkLength .a a
  checkLength .b b
  let x ← decodeElements .a a
  let y ← decodeElements .b b
  f x y

theorem entryAdd4_eq_checkNibbles (a b : List Value) (cin : Option Value) :
    entryAdd4 a b cin = checkNibbles a b fun x y => decodeCarryIn cin >>= fun c => pure (.add4 x y c) := rfl

theorem entryAddSubtract_eq_checkNibbles (a b : List Value) (op : Value) :
    entryAddSubtract a b op =
      decodeOp op >>= fun o => checkNibbles a b fun x y => pure (Line.addsub x y o).expand := by
  unfold entryAddSubtract
  congr 1
  funext o
  cases o <;> rfl

theorem checkNibbles_onlyLegalErrors (a b : List Value) {f : Nibble → Nibble → Except BoundaryError Instr}
    (hf : ∀ x y, OnlyLegalErrors (f x y)) : OnlyLegalErrors (checkNibbles a b f) :=
  .bind (checkLength_onlyLegalErrors (by decide) a) fun _ =>
    .bind (checkLength_onlyLegalErrors (by decide) b) fun _ =>
      .bind (decodeElements_onlyLegalErrors (by decide) a) fun x =>
        .bind (decodeElements_onlyLegalErrors (by decide) b) (hf x)

theorem ofExcept_eq_error_iff {x : Except BoundaryError Instr} {e : BoundaryError} :
    Admission.ofExcept x = .error e ↔ x = .error e := by
  cases x <;> simp [Admission.ofExcept]

theorem legalError_of_decodeEntry {c : EntryCall} {e : BoundaryError} (h : decodeEntry c = .error e) : LegalError e := by
  cases c <;> simp only [decodeEntry] at h
  case add4 a b cin =>
    rw [ofExcept_eq_error_iff, entryAdd4_eq_checkNibbles] at h
    exact checkNibbles_onlyLegalErrors a b (fun _ _ => (decodeCarryIn_onlyLegalErrors cin).bind fun _ => .pure _) e h
  case onesComplement x =>
    exact ((decodeNibble_onlyLegalErrors (by decide) x).bind fun _ => .pure _) e (ofExcept_eq_error_iff.1 h)
  case twosComplement x =>
    exact ((decodeNibble_onlyLegalErrors (by decide) x).bind fun _ => .pure _) e (ofExcept_eq_error_iff.1 h)
  case addSubtract a b op =>
    rw [ofExcept_eq_error_iff, entryAddSubtract_eq_checkNibbles] at h
    exact ((decodeOp_onlyLegalErrors op).bind fun _ => checkNibbles_onlyLegalErrors a b fun _ _ => .pure _) e h
  all_goals exact absurd h (ofOption_ne_error _ _ e)

/-- The Bits put back after a word are never an empty stretch. -/
theorem words_nil_notMem_remaining {later : List Call} (h : Call.words [] ∉ later) (left : Bits) :
    Call.words [] ∉ remaining left later := by
  cases left with
  | nil => exact h
  | cons b left => simpa [remaining] using h

/-- Settles O54: an evaluation's outputs and the boundary's errors are legal, and no empty stretch of words is put
back. -/
theorem stepKeepsRepliesLegal : Obligations.StepKeepsRepliesLegal := by
  rintro s t ⟨-, hcalls⟩ hstep
  obtain ⟨c, later, hc, h⟩ := step_eq_next hstep
  have hlater : Call.words [] ∉ later := fun hmem => hcalls (hc ▸ List.mem_cons_of_mem c hmem)
  obtain ⟨bits, i, left, -, -, hexec⟩ | ⟨-, ⟨i, hexec⟩ | ⟨e, err, herr, rfl⟩ | ⟨A, B, OP, heval⟩⟩ := h
  · exact ⟨reply_legal_of_exec hexec, calls_of_exec hexec ▸ words_nil_notMem_remaining hlater left⟩
  · exact ⟨reply_legal_of_exec hexec, calls_of_exec hexec ▸ hlater⟩
  · exact ⟨legalError_of_decodeEntry herr, hlater⟩
  · exact ⟨reply_legal_of_evalTopLevel heval, calls_of_evalTopLevel heval ▸ hlater⟩

theorem remaining_eq_ite (left : Bits) (later : List Call) :
    remaining left later = if left = [] then later else .words left :: later := by
  cases left with
  | nil => exact (if_pos rfl).symm
  | cons b left => exact (if_neg (List.cons_ne_nil b left)).symm

/-- R310: every format has at least one field. -/
theorem five_le_encode_length (i : Instr) : 5 ≤ (encode i).length := by
  rw [encode_length]
  cases i.fn <;> decide

/-- Settles O26: the decoder says what it took off a stretch of words, and an evaluation takes no more. -/
theorem stepTakesOneCall : Obligations.StepTakesOneCall := by
  intro s t hstep
  obtain ⟨c, later, hc, h⟩ := step_eq_next hstep
  refine ⟨c, later, hc, ?_⟩
  obtain ⟨bits, i, left, rfl, hdec, hexec⟩ | ⟨hwords, ⟨i, hexec⟩ | ⟨e, err, -, rfl⟩ | ⟨A, B, OP, heval⟩⟩ := h
  · have hbits := eq_encode_append_of_decode hdec
    refine .inr ⟨bits, left, i, rfl, hdec, hbits, ?_, ?_⟩
    · have hlen := five_le_encode_length i
      rw [hbits, List.length_append]
      omega
    · rw [calls_of_exec hexec, State.withCalls_calls, remaining_eq_ite]
  · exact .inl ⟨hwords, calls_of_exec hexec⟩
  · exact .inl ⟨hwords, rfl⟩
  · exact .inl ⟨hwords, calls_of_evalTopLevel heval⟩

end Sys2Proof.Machine
end

section
/-! The gates and the adders as operations: their tables, and the exact sums (spec/40_gates.md, spec/41_adders.md). -/

namespace Sys2Proof.Machine

/-- Settles O1: each table row by row. -/
theorem primitiveGatesGiveTheirTables : Obligations.PrimitiveGatesGiveTheirTables := by
  intro a b s
  refine ⟨?_, ?_, ?_⟩
  · cases a <;> cases b <;> rfl
  · cases a <;> cases b <;> rfl
  · cases a <;> rfl

/-- Settles O2: the compositions are the definitions, and as native Booleans they are `^^` and `!(· && ·)`. -/
theorem derivedGatesAreTheirCompositions : Obligations.DerivedGatesAreTheirCompositions := by
  refine fun a b s => ⟨xorGate a b, nandGate a b, rfl, rfl, ?_, rfl, rfl, ?_⟩
  · rw [xorGate_eq_xor, bne_iff_ne]
  · rw [nandGate_eq_not_and, Bool.not_eq_true', Bool.eq_false_iff, ne_eq, Bool.and_eq_true]

/-- Settles O4: the outputs are the definition's, and `halfAdder_sum` weighs them. -/
theorem halfAdderAddsTwoBits : Obligations.HalfAdderAddsTwoBits := fun a b _ =>
  ⟨xorGate a b, andGate a b, rfl, rfl, rfl, halfAdder_sum a b⟩

/-- The carries of a full adder's two half adders exclude each other: their sum would be at least 4. -/
theorem fullAdder_carries_exclusive (a b cin : Bit) :
    ¬((halfAdder a b).2 = true ∧ (halfAdder (halfAdder a b).1 cin).2 = true) := by
  rintro ⟨h1, h2⟩
  have hfirst := halfAdder_sum a b
  have hsecond := halfAdder_sum (halfAdder a b).1 cin
  have ha := bval_le_one a
  have hb := bval_le_one b
  have hc := bval_le_one cin
  rw [h1, bval_true] at hfirst
  rw [h2, bval_true] at hsecond
  omega

/-- Settles O5: the two half adders' outputs are the definition's parts, and `fullAdder_sum` weighs the whole. -/
theorem fullAdderIsTwoHalfAddersAndAnOr : Obligations.FullAdderIsTwoHalfAddersAndAnOr := fun a b cin _ =>
  ⟨_, _, _, _, rfl, rfl, rfl, fullAdder_carries_exclusive a b cin, fullAdder_sum a b cin⟩

/-- Settles O6: the chain is the definition. -/
theorem rippleAdderChainsFourFullAdders : Obligations.RippleAdderChainsFourFullAdders := fun a b cin _ =>
  ⟨(add4 a b cin).1, _, _, _, (add4 a b cin).2, rfl, rfl, rfl, rfl, rfl⟩

/-! ADD4 and its exact five-bit sum determine each other. -/

theorem eq_true_iff_bval {c : Bit} : c = true ↔ bval c = 1 := by cases c <;> decide

theorem concat_inj {c c' : Bit} {x x' : Nibble} (h : concat c x = concat c' x') : c = c' ∧ x = x' := by
  have hx := uval_le x
  have hx' := uval_le x'
  unfold concat at h
  exact ⟨bval_inj (by omega), uval_inj (by omega)⟩

/-- What has the value of the exact sum is what ADD4 gives. -/
theorem add4_eq_of_concat {a b r : Nibble} {cin c : Bit} (h : concat c r = uval a + uval b + bval cin) :
    add4 a b cin = (r, c) := by
  obtain ⟨hc, hr⟩ := concat_inj ((add4_concat a b cin).trans h.symm)
  exact Prod.ext hr hc

theorem uval_add4 (a b : Nibble) (cin : Bit) : uval (add4 a b cin).1 = (uval a + uval b + bval cin) % 16 := by
  have hsum := add4_concat a b cin
  have hle := uval_le (add4 a b cin).1
  unfold concat at hsum
  omega

theorem bval_add4_carry (a b : Nibble) (cin : Bit) : bval (add4 a b cin).2 = (uval a + uval b + bval cin) / 16 := by
  have hsum := add4_concat a b cin
  have hle := uval_le (add4 a b cin).1
  unfold concat at hsum
  omega

/-- R504: the carry is unsigned overflow. -/
theorem add4_carry_eq_true_iff {a b : Nibble} {cin : Bit} :
    (add4 a b cin).2 = true ↔ 15 < uval a + uval b + bval cin := by
  have hcarry := bval_add4_carry a b cin
  have hle := bval_le_one (add4 a b cin).2
  rw [eq_true_iff_bval]
  omega

theorem exec_add4 (a b : Nibble) (cin : Bit) (s : State) :
    exec (.add4 a b cin) s = deliver (.adder (add4 a b cin).1 (add4 a b cin).2) s := rfl

theorem exec_add4_of_concat {a b r : Nibble} {cin c : Bit} (h : concat c r = uval a + uval b + bval cin) (s : State) :
    exec (.add4 a b cin) s = .next { s with reply := .outputs (.adder r c) } := by
  rw [exec_add4, add4_eq_of_concat h, deliver_eq_next]

/-- Settles O7: the result and the carry are remainder and quotient of the exact sum. -/
theorem rippleAdderGivesTheExactSum : Obligations.RippleAdderGivesTheExactSum := fun a b cin _ =>
  ⟨_, _, rfl, uval_add4 a b cin, bval_add4_carry a b cin, add4_concat a b cin, add4_carry_eq_true_iff⟩

/-- Doubling is a shift (R502). -/
theorem concat_shift (a : Nibble) : concat a.n0 ⟨a.n1, a.n2, a.n3, false⟩ = uval a + uval a := by
  simp only [concat, uval, bval_false]
  omega

/-- Settles O8: each clause names a five-bit value, and it is the exact sum. -/
theorem rippleAdderCommutesAndDoubles : Obligations.RippleAdderCommutesAndDoubles := by
  intro a b cin s
  refine ⟨?_, exec_add4_of_concat ?_ s, exec_add4_of_concat (concat_shift a) s⟩
  · rw [exec_add4, exec_add4, add4_comm]
  · simp only [concat, uval, bval_false, Nat.mul_zero, Nat.zero_add, Nat.add_zero]

end Sys2Proof.Machine
end

section
/-! The complements as operations (spec/42_complement.md R600 to R602). -/

namespace Sys2Proof.Machine

theorem exec_ones (x : Nibble) (s : State) : exec (.ones x) s = deliver (.complement (onesComplement x)) s := rfl

theorem exec_twos (x : Nibble) (s : State) : exec (.twos x) s = deliver (.complement (twosComplement x)) s := rfl

theorem eq_iff_uval_eq {x y : Nibble} : x = y ↔ uval x = uval y := ⟨congrArg uval, uval_inj⟩

theorem uval_zero : uval ⟨false, false, false, false⟩ = 0 := rfl

theorem uval_eight : uval ⟨true, false, false, false⟩ = 8 := rfl

theorem position_onesComplement (x : Nibble) (k : Fin 4) : position (onesComplement x) k = notGate (position x k) := by
  fin_cases k <;> rfl

theorem onesComplement_onesComplement (x : Nibble) : onesComplement (onesComplement x) = x := by
  have h := uval_onesComplement x
  have h' := uval_onesComplement (onesComplement x)
  exact uval_inj (by omega)

/-- Settles O9: a NOT at each position, and the sum 15 with the argument gives the value and the involution. -/
theorem onesComplementInvertsEachPosition : Obligations.OnesComplementInvertsEachPosition := by
  refine fun x s => ⟨onesComplement x, rfl, fun k => ?_, ?_, ?_⟩
  · rw [position_onesComplement, notGate_eq_not, Bool.not_eq_true']
  · have h := uval_onesComplement x
    omega
  · rw [exec_ones, onesComplement_onesComplement, deliver_eq_next]

/-- Settles O10: the addition is the definition; its sum is 16 - x, which carries for 0 alone. -/
theorem twosComplementIsOnesPlusOne : Obligations.TwosComplementIsOnesPlusOne := by
  refine fun x s => ⟨onesComplement x, twosComplement x, _, rfl, rfl, rfl, rfl, ?_⟩
  have h := uval_onesComplement x
  rw [add4_carry_eq_true_iff, eq_iff_uval_eq, uval_zero]
  change 15 < uval (onesComplement x) + 1 + 0 ↔ _
  omega

theorem twosComplement_twosComplement (x : Nibble) : twosComplement (twosComplement x) = x := by
  have hx := uval_le x
  apply uval_inj
  rw [uval_twosComplement, uval_twosComplement]
  omega

/-- R602: the fixed points of negation modulo 16 are 0 and 8. -/
theorem twosComplement_eq_self_iff {x : Nibble} :
    twosComplement x = x ↔ x = ⟨false, false, false, false⟩ ∨ x = ⟨true, false, false, false⟩ := by
  have hx := uval_le x
  simp only [eq_iff_uval_eq, uval_twosComplement, uval_zero, uval_eight]
  omega

/-- The signed value is the unsigned one, less 16 from 8 on. -/
theorem sval_eq_uval_sub (x : Nibble) : sval x = (uval x : Int) - 16 * ((uval x / 8 : Nat) : Int) := by
  rw [sval, bval_n0_eq_uval_div]

/-- R602: the signed value is negated, but for 8, which has no positive counterpart. -/
theorem sval_twosComplement {x : Nibble} (h : uval x ≠ 8) : sval (twosComplement x) = -sval x := by
  have hx := uval_le x
  rw [sval_eq_uval_sub, sval_eq_uval_sub, uval_twosComplement]
  omega

/-- Settles O11: all clauses are about the value `(16 - x) mod 16`. -/
theorem twosComplementNegatesModulo16 : Obligations.TwosComplementNegatesModulo16 := by
  refine fun x s => ⟨twosComplement x, rfl, uval_twosComplement x, ?_, twosComplement_eq_self_iff, fun hx => ?_, ?_⟩
  · rw [exec_twos, twosComplement_twosComplement, deliver_eq_next]
  · exact sval_twosComplement fun h => hx (uval_inj h)
  · rintro rfl
    rfl

/-- Settles O12: the exact sum is 16 for every `x` but 0. -/
theorem addingTheTwosComplementGivesZero : Obligations.AddingTheTwosComplementGivesZero := by
  intro x s
  have hx := uval_le x
  have hsum : (add4 x (twosComplement x) false).1 = ⟨false, false, false, false⟩ := by
    apply uval_inj
    rw [uval_add4, uval_twosComplement, uval_zero, bval_false]
    omega
  refine ⟨twosComplement x, (add4 x (twosComplement x) false).2, rfl, ?_, ?_⟩
  · rw [exec_add4, hsum, deliver_eq_next]
  · rw [add4_carry_eq_true_iff, uval_twosComplement, bval_false, ne_eq, eq_iff_uval_eq, uval_zero]
    omega

end Sys2Proof.Machine
end

section
/-! The adder/subtractor and the interpreter as operations (spec/43_addsub.md, spec/44_interpret.md). -/

namespace Sys2Proof.Machine

/-- For op = 0 the datapath is ADD4 with the carry-in tied to 0 (R701). -/
theorem addSubtract_false (a b : Nibble) : addSubtract a b false = add4 a b false := rfl

theorem addSubtract_false_comm (a b : Nibble) : addSubtract a b false = addSubtract b a false := add4_comm a b false

/-- R705: ADD's carry is unsigned overflow. -/
theorem addSubtract_false_carry_iff {a b : Nibble} : (addSubtract a b false).2 = true ↔ 15 < uval a + uval b := by
  rw [addSubtract_false, add4_carry_eq_true_iff, bval_false, Nat.add_zero]

/-- Settles O13: ADD is ADD4 with carry-in 0, of which the exact sum is known. -/
theorem addGivesTheSumModulo16 : Obligations.AddGivesTheSumModulo16 := by
  refine fun a b s => ⟨_, _, rfl, rfl, ?_, uval_addSubtract_false a b, addSubtract_false_carry_iff, fun hc => ?_⟩
  · rw [exec_add, addSubtract_false_comm, deliver_eq_next]
  · rw [← concat_addSubtract_false, concat, hc, bval_true]

/-- Settles O14: the datapath's definition for op = 1. -/
theorem subAddsTheTwosComplement : Obligations.SubAddsTheTwosComplement := fun _ _ _ => ⟨_, _, _, rfl, rfl, rfl⟩

/-- R705: for a subtrahend other than 0 the carry says that nothing was borrowed. -/
theorem addSubtract_true_carry_iff {a b : Nibble} (hb : uval b ≠ 0) :
    (addSubtract a b true).2 = true ↔ uval b ≤ uval a := by
  have hsum := concat_addSubtract_true a b
  have hr := uval_le (addSubtract a b true).1
  have hle := uval_le b
  have hc := bval_le_one (addSubtract a b true).2
  rw [eq_true_iff_bval]
  unfold concat at hsum
  omega

/-- R705: with a borrow the result is 16 more than the difference. -/
theorem addSubtract_true_difference {a b : Nibble} (hb : uval b ≠ 0) :
    (uval a : Int) - uval b = uval (addSubtract a b true).1 - 16 * (1 - (bval (addSubtract a b true).2 : Int)) := by
  have hsum := concat_addSubtract_true a b
  have hle := uval_le b
  unfold concat at hsum
  omega

/-- C3: a subtrahend of 0 adds nothing, so nothing is carried. -/
theorem addSubtract_true_of_zero {a b : Nibble} (hb : uval b = 0) : addSubtract a b true = (a, false) := by
  refine add4_eq_of_concat (b := twosComplement b) ?_
  rw [uval_twosComplement, hb]
  change 16 * 0 + uval a = uval a + 0 + 0
  omega

/-- Settles O15: the five-bit result is `a + (16 - b) mod 16`, read apart for `b = 0`. -/
theorem subGivesTheDifferenceAndItsCarry : Obligations.SubGivesTheDifferenceAndItsCarry := by
  refine fun a b s => ⟨_, _, rfl, uval_addSubtract_true a b, addSubtract_true_carry_iff, fun hb hc => ?_,
    addSubtract_true_difference, fun hb => ?_⟩
  · have hdiff := addSubtract_true_difference (a := a) hb
    have hr := uval_le (addSubtract a b true).1
    have hle := uval_le b
    rw [hc, bval_false] at hdiff
    rw [← nib_uval (addSubtract a b true).1]
    congr 1
    omega
  · rw [addSubtract_true_of_zero hb]
    exact ⟨rfl, rfl⟩

/-- Settles O16: SUB(a, a) adds `a` and its two's complement, of which O12 gives the sum and the carry. -/
theorem selfSubtractionGivesZero : Obligations.SelfSubtractionGivesZero := by
  intro a s
  obtain ⟨y, k, htwos, hadd, hk⟩ := addingTheTwosComplementGivesZero a s
  obtain ⟨t, r, c, htwos', hadd', hsub⟩ := subAddsTheTwosComplement a a s
  obtain rfl : t = y := by simpa [htwos] using htwos'.symm
  obtain ⟨rfl, rfl⟩ : (⟨false, false, false, false⟩ : Nibble) = r ∧ k = c := by simpa [hadd] using hadd'
  exact ⟨k, hsub, hk⟩

/-- R802: the port's value is its two's-complement reading. -/
theorem portValue_eq_toInt : ∀ V : BitVec 5, portValue V = V.toInt := by decide

/-- A five-bit port holds the interpreter's range. -/
theorem toInt_portV {v : Int} (hlow : -15 ≤ v) (hhigh : v ≤ 15) : (portV v).toInt = v := by
  rw [portV, BitVec.toInt_ofInt]
  exact Int.bmod_eq_of_le (by omega) (by omega)

/-- Settles O18: the paths of the definition, their range, and the port form, which would read -16 at 10000. -/
theorem interpreterFollowsThePaths : Obligations.InterpreterFollowsThePaths := by
  intro r isSub c s
  obtain ⟨hlow, hhigh⟩ : -15 ≤ toSignedValue r isSub c ∧ toSignedValue r isSub c ≤ 15 :=
    toSignedValue_inInterpreterRange r isSub c
  have hport := toInt_portV hlow hhigh
  refine ⟨toSignedValue r isSub c, rfl, ?_, ?_, hlow, hhigh, ?_, fun h => ?_⟩
  · rintro (rfl | rfl)
    · exact toSignedValue_false r c
    · cases isSub <;> rfl
  · rintro ⟨rfl, rfl⟩
    exact toSignedValue_true_false r
  · rw [portValue_eq_toInt, hport]
  · rw [h] at hport
    change (-16 : Int) = _ at hport
    omega

end Sys2Proof.Machine
end

section
/-! Every evaluation: the wiring of the assembled block, order, the carry, and the state at reset (spec/10_state.md R107
to R111, spec/20_memory.md R208, spec/70_reset_and_hazards.md R1000). -/

namespace Sys2Proof.Machine

/-- Settles O19: for either OP the block's three outputs are computed as its parts compute theirs. -/
theorem assembledBlockIsWiredAsStated : Obligations.AssembledBlockIsWiredAsStated := by
  intro A B OP later old
  refine ⟨(addSubtract A B OP).1, (addSubtract A B OP).2, _, ?_, rfl, step_topLevel A B OP () later old⟩
  cases OP <;> rfl

/-- Settles O23: what an operation delivers is the same from every state, that after the other operation too. -/
theorem evaluationsCommute : Obligations.EvaluationsCommute := by
  intro i j s
  obtain ⟨oi, hi⟩ := exec_eq_deliver i
  obtain ⟨oj, hj⟩ := exec_eq_deliver j
  exact ⟨s.answer oi, s.answer oj, (s.answer oi).answer oj, (s.answer oj).answer oi, hi s, hj s, hj _, hi _, rfl, rfl⟩

/-- Settles O24: the outputs of each operation, constructor by constructor. -/
theorem carryComesFromTheAddersAlone : Obligations.CarryComesFromTheAddersAlone := by
  intro i s
  cases i <;> exact ⟨_, rfl, by simp [Instr.fn, carryFlag]⟩

/-- Settles O25: no step reads the reply. -/
theorem stepIgnoresTheLastReply : Obligations.StepIgnoresTheLastReply := fun calls r r' => step_congr_reply calls () r r'

/-- Settles O52: the empty list of calls has no first call to take. -/
theorem resetDrivesNothing : Obligations.ResetDrivesNothing := ⟨rfl, rfl, rfl⟩

/-- Settles O53: no reply is a legal one, and no call is no empty stretch. -/
theorem resetIsLegal : Obligations.ResetIsLegal := ⟨trivial, List.not_mem_nil⟩

end Sys2Proof.Machine
end

section
/-! Steps and runs on words (spec/30_encoding.md section 3). -/

namespace Sys2Proof.Machine

/-- Settles O30: the decoder evaluated on the thirteen words. -/
theorem sampleWordsDecode : Obligations.SampleWordsDecode :=
  ⟨rfl, rfl, rfl, rfl, rfl, rfl, rfl, rfl, rfl, rfl, rfl, rfl, rfl, rfl, rfl⟩

/-- R312: the codes that begin 11 and are not TO_SIGNED's are reserved. -/
theorem decode_of_reserved {f1 f0 : Bit} (h : f1 = true ∨ f0 = true) (fields : Bits) :
    decode (true :: true :: f1 :: f0 :: fields) = .error (.reservedFn true true f1 f0) := by
  cases f1 <;> cases f0
  case false.false => simp at h
  all_goals rfl

/-- Settles O31: the decoder names the code it rejects. -/
theorem reservedCodesAreRefused : Obligations.ReservedCodesAreRefused := fun _ _ fields later old h =>
  step_words_of_error (decode_of_reserved h fields) () later old

/-- Settles O32: `remaining` is the stated list of calls. -/
theorem stepRunsTheDecodedInstruction : Obligations.StepRunsTheDecodedInstruction := by
  intro bits left i later old h
  rw [step_words_of_ok h, remaining_eq_ite]

/-- A word driven is the evaluation of its instruction. -/
theorem step_words_encode_append (i : Instr) (left : Bits) (k : CoreState) (later : List Call) (old : Reply) :
    step ⟨k, .words (encode i ++ left) :: later, old⟩ = exec i ⟨k, remaining left later, old⟩ :=
  step_words_of_ok (decode_encode_append i left) k later old

theorem step_words_encode (i : Instr) (k : CoreState) (later : List Call) (old : Reply) :
    step ⟨k, .words (encode i) :: later, old⟩ = exec i ⟨k, later, old⟩ := by
  have h := step_words_encode_append i [] k later old
  rwa [List.append_nil] at h

theorem remaining_of_ne_nil {left : Bits} (h : left ≠ []) (later : List Call) :
    remaining left later = .words left :: later := by
  rw [remaining_eq_ite, if_neg h]

theorem encode_ne_nil (i : Instr) : encode i ≠ [] := by
  cases i <;> exact List.cons_ne_nil _ _

/-- The program's words without its first one are the next stretch: they hold the last instruction's. -/
theorem flatMap_encode_append_ne_nil (program : List Instr) (last : Instr) :
    (program ++ [last]).flatMap encode ≠ [] := by
  simp [List.flatMap_append, encode_ne_nil]

/-- Settles O33: by induction over the instructions before the last, for every reply that came before. -/
theorem wordProgramsRunToTheEnd : Obligations.WordProgramsRunToTheEnd := by
  intro program last later old
  obtain ⟨o, ho⟩ := exec_eq_deliver last
  refine ⟨o, by rw [ho, deliver_eq_next], ?_⟩
  induction program generalizing old with
  | nil =>
    refine run_succ_of_step (M := Sys2Proof.core) ?_ 0
    change step ⟨(), .words (encode last ++ []) :: later, old⟩ = _
    rw [step_words_encode_append, ho, deliver_eq_next]
    rfl
  | cons i program ih =>
    obtain ⟨oi, hi⟩ := exec_eq_deliver i
    refine (run_succ_of_step (M := Sys2Proof.core) ?_ (program.length + 1)).trans (ih (.outputs oi))
    change step ⟨(), .words (encode i ++ (program ++ [last]).flatMap encode) :: later, old⟩ = _
    rw [step_words_encode_append, remaining_of_ne_nil (flatMap_encode_append_ne_nil program last), hi, deliver_eq_next]
    rfl

end Sys2Proof.Machine
end

section
/-! Words as numbers (spec/30_encoding.md R310; log entry 7). -/

namespace Sys2Proof

/-- The low Bits of a number do not depend on what stands above them. -/
theorem bitsOfNat_two_pow_mul_add {w k : Nat} (hw : w < 2 ^ k) (high : Nat) {j : Nat} (hj : j ≤ k) :
    bitsOfNat (2 ^ k * high + w) j = bitsOfNat w j := by
  induction j with
  | zero => rfl
  | succ j ih => rw [bitsOfNat, bitsOfNat, ih (by omega), Nat.testBit_two_pow_mul_add high hw, if_pos (by omega)]

/-- Every list of Bits spells a number at its own width. -/
theorem exists_bitsOfNat_eq (bits : Bits) : ∃ w, w < 2 ^ bits.length ∧ bitsOfNat w bits.length = bits := by
  induction bits with
  | nil => exact ⟨0, Nat.one_pos, rfl⟩
  | cons b bits ih =>
    obtain ⟨w, hw, hbits⟩ := ih
    refine ⟨2 ^ bits.length * b.toNat + w, ?_, ?_⟩
    · rw [List.length_cons, Nat.pow_succ]
      have hb : 2 ^ bits.length * b.toNat ≤ 2 ^ bits.length * 1 := Nat.mul_le_mul_left _ b.toNat_le
      omega
    · rw [List.length_cons, bitsOfNat, bitsOfNat_two_pow_mul_add hw _ le_rfl, hbits, Nat.testBit_two_pow_mul_add _ hw,
        if_neg (Nat.lt_irrefl _), Nat.sub_self]
      cases b <;> rfl

/-- A number that spells an instruction's word in the whole container is read as that word. -/
theorem tableBits_of_bitsOfNat_eq_encode {w n : Nat} {i : Instr} (hw : w < 2 ^ n) (h : bitsOfNat w n = encode i) :
    tableBits w n = some (encode i) := by
  have hdec : decode (encode i) = .ok (i, []) := by simpa using decode_encode_append i []
  cases n with
  | zero => exact absurd h.symm (Machine.encode_ne_nil i)
  | succ k => rw [tableBits, if_pos hw, h, hdec]

theorem decodeTableWord_of_bitsOfNat_eq_encode {w n : Nat} {i : Instr} (hw : w < 2 ^ n) (h : bitsOfNat w n = encode i) :
    decodeTableWord n w = some i := by
  have hdec : decode (encode i) = .ok (i, []) := by simpa using decode_encode_append i []
  simp only [decodeTableWord, tableBits_of_bitsOfNat_eq_encode hw h, hdec]

namespace Machine

theorem withFetchWord_of_tableBits {w n : Nat} {bits : Bits} (h : tableBits w n = some bits) (s : State) :
    s.withFetchWord n w = ⟨s.core, .words bits :: s.calls, s.reply⟩ := by
  rw [State.withFetchWord, h]
  rfl

/-- Settles O34: the number whose binary digits are the word's Bits. -/
theorem placedWordsRunAsTheFirstInstruction : Obligations.PlacedWordsRunAsTheFirstInstruction := by
  intro i s
  obtain ⟨w, hw, hbits⟩ := exists_bitsOfNat_eq (encode i)
  rw [encode_length] at hw hbits
  refine ⟨w, hw, hbits, decodeTableWord_of_bitsOfNat_eq_encode hw hbits, ?_⟩
  rw [withFetchWord_of_tableBits (tableBits_of_bitsOfNat_eq_encode hw hbits), step_words_encode]

end Machine

end Sys2Proof
end

section
/-! Software calls: what each entry point evaluates, reports first, or refuses (spec/30_encoding.md R304 to R307, R315,
spec/60_exceptions.md R900 to R907). -/

namespace Sys2Proof.Machine

@[simp] theorem nibbleOf_nibbleValues (x : Nibble) : nibbleOf (nibbleValues x) = some x := nibbleOf_eq_some_iff.2 rfl

theorem decodeNibble_nibbleValues (n : ArgName) (x : Nibble) : decodeNibble n (nibbleValues x) = .ok x :=
  decodeNibble_eq_ok_iff.2 rfl

theorem entryOnes_nibbleValues (x : Nibble) : entryOnes (nibbleValues x) = .ok (.ones x) := by
  rw [entryOnes, decodeNibble_nibbleValues]
  rfl

theorem entryTwos_nibbleValues (x : Nibble) : entryTwos (nibbleValues x) = .ok (.twos x) := by
  rw [entryTwos, decodeNibble_nibbleValues]
  rfl

/-- R315: the boundary takes an instruction's own call for that instruction. -/
theorem decodeEntry_entryOf (i : Instr) : decodeEntry (entryOf i) = .run i := by
  cases i <;> simp only [entryOf, decodeEntry]
  case add4 a b cin => rw [entryAdd4_nibbleValues, decodeCarryIn_bitValue]; rfl
  case ones x => rw [entryOnes_nibbleValues]; rfl
  case twos x => rw [entryTwos_nibbleValues]; rfl
  case add a b => rw [entryAddSubtract_nibbleValues]; rfl
  case sub a b => rw [entryAddSubtract_nibbleValues]; rfl
  case toSigned r s c => simp only [entryToSigned, nibbleOf_nibbleValues, flagOf, bitOf_bitValue]; rfl
  all_goals simp only [entryG1, entryG2, entryG3, bitOf_bitValue]; rfl

/-- Settles O35: the boundary lets the call run as its instruction. -/
theorem entryCallsRunTheirInstruction : Obligations.EntryCallsRunTheirInstruction := fun i later old =>
  step_entry_of_run (decodeEntry_entryOf i) () later old

/-! The first check that fails is the one reported. -/

/-- The two complement calls report what their argument's check reports. -/
theorem step_complements_of_error {vs : List Value} {e : BoundaryError} (h : decodeNibble .x vs = .error e)
    (later : List Call) (old : Reply) :
    step ⟨(), .entry (.twosComplement vs) :: later, old⟩ = .next ⟨(), later, .error e⟩ ∧
      step ⟨(), .entry (.onesComplement vs) :: later, old⟩ = .next ⟨(), later, .error e⟩ :=
  ⟨step_entry_of_error (by rw [decodeEntry, entryTwos, h]; rfl) () later old,
    step_entry_of_error (by rw [decodeEntry, entryOnes, h]; rfl) () later old⟩

/-- Settles O37: the answers of `decodeNibble` that O36 gives. -/
theorem complementCallsCheckTheirArgument : Obligations.ComplementCallsCheckTheirArgument := by
  intro vs later old
  obtain ⟨hlength, hbit, -⟩ := nibbleArgumentsAreDecoded .x vs
  exact ⟨fun h => step_complements_of_error (hlength h) later old,
    fun k hlen hk => step_complements_of_error (hbit k hlen hk) later old⟩

/-! `checkNibbles` up to each of its checks. -/

theorem checkNibbles_of_length_ne_left {a b : List Value} (ha : a.length ≠ 4)
    (f : Nibble → Nibble → Except BoundaryError Instr) :
    checkNibbles a b f = .error (.invalidLength .a a.length) := by
  rw [checkNibbles, checkLength_of_length_ne .a ha]
  rfl

theorem checkNibbles_of_length_ne_right {a b : List Value} (ha : a.length = 4) (hb : b.length ≠ 4)
    (f : Nibble → Nibble → Except BoundaryError Instr) :
    checkNibbles a b f = .error (.invalidLength .b b.length) := by
  rw [checkNibbles, checkLength_of_length_eq .a ha, checkLength_of_length_ne .b hb]
  rfl

theorem checkNibbles_of_firstNonBit_left {a b : List Value} {k : Fin 4} (ha : a.length = 4) (hb : b.length = 4)
    (hk : FirstNonBit a k) (f : Nibble → Nibble → Except BoundaryError Instr) :
    checkNibbles a b f = .error (.invalidBit .a (some k)) := by
  rw [checkNibbles, checkLength_of_length_eq .a ha, checkLength_of_length_eq .b hb,
    decodeElements_of_firstNonBit .a ha hk]
  rfl

theorem checkNibbles_of_firstNonBit_right {a b : List Value} {k : Fin 4} (ha : Value.isNibble a = true)
    (hb : b.length = 4) (hk : FirstNonBit b k) (f : Nibble → Nibble → Except BoundaryError Instr) :
    checkNibbles a b f = .error (.invalidBit .b (some k)) := by
  obtain ⟨x, rfl⟩ := exists_eq_nibbleValues_of_isNibble ha
  rw [checkNibbles, checkLength_of_length_eq .a (nibbleValues_length x), checkLength_of_length_eq .b hb,
    decodeElements_nibbleValues, decodeElements_of_firstNonBit .b hb hk]
  rfl

/-- `add4` checks a and b first. -/
theorem step_add4_of_checkNibbles_error {a b : List Value} {e : BoundaryError}
    (h : ∀ f, checkNibbles a b f = .error e) (cin : Option Value) (later : List Call) (old : Reply) :
    step ⟨(), .entry (.add4 a b cin) :: later, old⟩ = .next ⟨(), later, .error e⟩ :=
  step_entry_of_error (by rw [decodeEntry, entryAdd4_eq_checkNibbles, h]; rfl) () later old

/-- `add_subtract` checks op before a and b. -/
theorem step_addSubtract_of_op_nonBit {op : Value} (h : op ≠ 0 ∧ op ≠ 1) (a b : List Value) (later : List Call)
    (old : Reply) :
    step ⟨(), .entry (.addSubtract a b op) :: later, old⟩ = .next ⟨(), later, .error (.invalidOperation op)⟩ :=
  step_entry_of_error (by rw [decodeEntry, entryAddSubtract, decodeOp_of_nonBit h]; rfl) () later old

theorem step_addSubtract_of_checkNibbles_error {a b : List Value} {op : Value} {e : BoundaryError}
    (hop : op = 0 ∨ op = 1) (h : ∀ f, checkNibbles a b f = .error e) (later : List Call) (old : Reply) :
    step ⟨(), .entry (.addSubtract a b op) :: later, old⟩ = .next ⟨(), later, .error e⟩ := by
  obtain ⟨o, rfl⟩ := exists_eq_bitValue hop
  refine step_entry_of_error ?_ () later old
  rw [decodeEntry, entryAddSubtract_eq_checkNibbles, decodeOp_bitValue, ofExcept_eq_error_iff]
  exact h _

/-- Settles O40: op comes first, and then the checks of a and b in their order. -/
theorem addSubtractReportsTheFirstFailure : Obligations.AddSubtractReportsTheFirstFailure := fun a b _ later old =>
  ⟨fun h => step_addSubtract_of_op_nonBit h a b later old, fun hop =>
    ⟨fun ha => step_addSubtract_of_checkNibbles_error hop (checkNibbles_of_length_ne_left ha) later old,
      fun ha hb => step_addSubtract_of_checkNibbles_error hop (checkNibbles_of_length_ne_right ha hb) later old,
      fun _ ha hb hk => step_addSubtract_of_checkNibbles_error hop (checkNibbles_of_firstNonBit_left ha hb hk) later old,
      fun _ hb ha hk =>
        step_addSubtract_of_checkNibbles_error hop (checkNibbles_of_firstNonBit_right ha hb hk) later old⟩⟩

/-- Settles O41: the checks of a and b in their order; with two Nibbles the carry-in decides. -/
theorem rippleAdderCallReportsTheFirstFailure : Obligations.RippleAdderCallReportsTheFirstFailure := by
  refine fun a b cin later old =>
    ⟨fun ha => step_add4_of_checkNibbles_error (checkNibbles_of_length_ne_left ha) cin later old,
      fun ha hb => step_add4_of_checkNibbles_error (checkNibbles_of_length_ne_right ha hb) cin later old,
      fun _ ha hb hk => step_add4_of_checkNibbles_error (checkNibbles_of_firstNonBit_left ha hb hk) cin later old,
      fun _ hb ha hk => step_add4_of_checkNibbles_error (checkNibbles_of_firstNonBit_right ha hb hk) cin later old, ?_⟩
  rintro v ha hb rfl h0 h1
  obtain ⟨x, rfl⟩ := exists_eq_nibbleValues_of_isNibble ha
  obtain ⟨y, rfl⟩ := exists_eq_nibbleValues_of_isNibble hb
  exact step_add4_of_carryIn_error (decodeCarryIn_of_nonBit ⟨h0, h1⟩) x y later old

/-! The unchecked entry points. -/

theorem decodeEntry_ne_error_of_unchecked {c : EntryCall} (h : c.checked = false) (e : BoundaryError) :
    decodeEntry c ≠ .error e := by
  cases c with
  | add4 | onesComplement | twosComplement | addSubtract => cases h
  | _ => exact ofOption_ne_error _ _ e

/-- R907: what an unchecked entry point does not let run, it refuses. -/
theorem exists_decodeEntry_eq_refuse {c : EntryCall} (hunchecked : c.checked = false) (hbroken : c.wellFormed = false) :
    ∃ r, decodeEntry c = .refuse r := by
  cases h : decodeEntry c with
  | run i =>
    have hkept := exists_decodeEntry_eq_run_iff_wellFormed.1 ⟨i, h⟩
    rw [hbroken] at hkept
    cases hkept
  | error e => exact absurd h (decodeEntry_ne_error_of_unchecked hunchecked e)
  | refuse r => exact ⟨r, rfl⟩

theorem eq_of_ofOption_eq_refuse {r r' : Refusal} {x : Option Instr} (h : Admission.ofOption r x = .refuse r') :
    r' = r := by
  cases x <;> cases h
  rfl

/-- D8: the interpreter's refusal. -/
theorem eq_interpreterArgument_of_refuse {r : List Value} {s : FlagArg} {v : Value} {reason : Refusal}
    (h : decodeEntry (.toSignedValue r s v) = .refuse reason) : reason = .interpreterArgument :=
  eq_of_ofOption_eq_refuse h

/-- D9: the refusal of the gates and the adders of Bits. -/
theorem eq_gateArgument_of_refuse {c : EntryCall} {reason : Refusal} (hkind : ¬∃ r s v, c = .toSignedValue r s v)
    (h : decodeEntry c = .refuse reason) : reason = .gateArgument := by
  cases c with
  | toSignedValue r s v => exact absurd ⟨r, s, v, rfl⟩ hkind
  | add4 | onesComplement | twosComplement | addSubtract => exact absurd h (ofExcept_ne_refuse _ _)
  | _ => exact eq_of_ofOption_eq_refuse h

/-- Settles O43: a broken unchecked call is refused, and the entry point fixes the reason. -/
theorem uncheckedCallsAreEvaluatedOrRefused : Obligations.UncheckedCallsAreEvaluatedOrRefused := by
  intro c later old hunchecked
  refine ⟨fun hkept => step_entry_of_wellFormed hkept () later old, fun hbroken hkind => ?_, fun hbroken hkind => ?_⟩
  · obtain ⟨reason, h⟩ := exists_decodeEntry_eq_refuse hunchecked hbroken
    obtain ⟨r, s, v, rfl⟩ := hkind
    rw [step_entry_of_refuse h, eq_interpreterArgument_of_refuse h]
  · obtain ⟨reason, h⟩ := exists_decodeEntry_eq_refuse hunchecked hbroken
    rw [step_entry_of_refuse h, eq_gateArgument_of_refuse hkind h]

end Sys2Proof.Machine
end

section
/-! The text of lines: reading is the inverse of writing (spec/30_encoding.md R314, R315). -/

namespace Sys2Proof.Machine

/-- The characters of a word: at least one, and none of them a separator. -/
def IsWord (cs : List Char) : Prop := cs ≠ [] ∧ ∀ c ∈ cs, c ≠ ' ' ∧ c ≠ ','

/-- What may stand after the operands: nothing, or an arrow and a comment. -/
def IsLineEnd (tail : List Char) : Prop := tail = [] ∨ ∃ comment, tail = ' ' :: '-' :: '>' :: ' ' :: comment

/-! Tokens. -/

theorem tokens_cons_of_ne {c : Char} (h : c ≠ ' ' ∧ c ≠ ',') (readSoFar cs : List Char) :
    tokens readSoFar (c :: cs) = tokens (c :: readSoFar) cs := by
  obtain ⟨hspace, hcomma⟩ := h
  rw [tokens]
  · exact hspace
  · exact hcomma

/-- A run of characters without separators is gathered, last character first. -/
theorem tokens_append {cs : List Char} (h : ∀ c ∈ cs, c ≠ ' ' ∧ c ≠ ',') (readSoFar rest : List Char) :
    tokens readSoFar (cs ++ rest) = tokens (cs.reverse ++ readSoFar) rest := by
  induction cs generalizing readSoFar with
  | nil => rfl
  | cons c cs ih =>
    obtain ⟨hc, hcs⟩ := List.forall_mem_cons.1 h
    rw [List.cons_append, tokens_cons_of_ne hc, ih hcs, List.reverse_cons, List.append_assoc]
    rfl

theorem flushWord_reverse {w : List Char} (h : w ≠ []) (ts : List Token) : flushWord w.reverse ts = .word w :: ts := by
  cases hrev : w.reverse with
  | nil => exact absurd (List.reverse_eq_nil_iff.1 hrev) h
  | cons c cs => rw [flushWord, ← hrev, List.reverse_reverse]

theorem tokens_word {w : List Char} (h : IsWord w) : tokens [] w = [.word w] := by
  have hw := tokens_append h.2 [] []
  rw [List.append_nil, List.append_nil] at hw
  rw [hw, tokens, flushWord_reverse h.1]

theorem tokens_word_space {w : List Char} (h : IsWord w) (rest : List Char) :
    tokens [] (w ++ ' ' :: rest) = .word w :: tokens [] rest := by
  rw [tokens_append h.2, List.append_nil, tokens, flushWord_reverse h.1]

theorem tokens_word_comma {w : List Char} (h : IsWord w) (rest : List Char) :
    tokens [] (w ++ ',' :: rest) = .word w :: .comma :: tokens [] rest := by
  rw [tokens_append h.2, List.append_nil, tokens, flushWord_reverse h.1]

theorem tokens_space (rest : List Char) : tokens [] (' ' :: rest) = tokens [] rest := by
  rw [tokens, flushWord]

theorem isWord_arrow : IsWord ['-', '>'] := by simp [IsWord]

/-! Operands. -/

theorem readOperands_last {w tail : List Char} (hw : IsWord w) (htail : IsLineEnd tail) :
    readOperands (tokens [] (w ++ tail)) = some [w] := by
  obtain rfl | ⟨comment, rfl⟩ := htail
  · rw [List.append_nil, tokens_word hw, readOperands]
  · have harrow := tokens_word_space isWord_arrow comment
    rw [tokens_word_space hw, show '-' :: '>' :: ' ' :: comment = ['-', '>'] ++ ' ' :: comment from rfl, harrow,
      readOperands]

/-- By induction over the operands: all but the last have a comma after them. -/
theorem readOperands_commaSeparated {ws : List (List Char)} (hne : ws ≠ []) (hws : ∀ w ∈ ws, IsWord w)
    {tail : List Char} (htail : IsLineEnd tail) :
    readOperands (tokens [] (commaSeparated ws ++ tail)) = some ws := by
  induction ws with
  | nil => exact absurd rfl hne
  | cons w ws ih =>
    obtain ⟨hw, hrest⟩ := List.forall_mem_cons.1 hws
    cases ws with
    | nil => exact readOperands_last hw htail
    | cons w' ws =>
      rw [commaSeparated, List.append_assoc, List.cons_append, List.cons_append, tokens_word_comma hw, tokens_space,
        readOperands, ih (List.cons_ne_nil w' ws) hrest]
      exact List.cons_ne_nil w' ws

/-- A mnemonic and its operands are read as they were written, with or without a comment. -/
theorem readLine_of_words {m : List Char} {ws : List (List Char)} (hm : IsWord m) (hne : ws ≠ [])
    (hws : ∀ w ∈ ws, IsWord w) {tail : List Char} (htail : IsLineEnd tail) :
    readLine (m ++ ' ' :: commaSeparated ws ++ tail) = lineOf m ws := by
  rw [List.append_assoc, List.cons_append, readLine, tokens_word_space hm]
  simp only [readOperands_commaSeparated hne hws htail]

@[simp] theorem readBitOperand_bitChar (b : Bit) : readBitOperand [bitChar b] = some b := by cases b <;> rfl

@[simp] theorem readNibbleOperand_nibbleChars (x : Nibble) : readNibbleOperand (nibbleChars x) = some x := by
  simp only [nibbleChars, Nibble.bits, List.map, readNibbleOperand, readBitChar, readBitOperand_bitChar]
  rfl

theorem isWord_bitChar (b : Bit) : IsWord [bitChar b] := by cases b <;> simp [IsWord, bitChar]

theorem isWord_nibbleChars (x : Nibble) : IsWord (nibbleChars x) := by
  refine ⟨List.cons_ne_nil _ _, fun c hc => ?_⟩
  obtain ⟨b, -, rfl⟩ := List.mem_map.1 hc
  exact (isWord_bitChar b).2 _ List.mem_cons_self

theorem isWord_mnemonicChars (fn : Fn) : IsWord (mnemonicChars fn) := by cases fn <;> simp [IsWord, mnemonicChars]

/-! A line is its mnemonic and its operands. -/

/-- The mnemonic of a line. -/
def lineMnemonic : Line → List Char
  | .core i => mnemonicChars i.fn
  | .add4Default _ _ => mnemonicChars .add4
  | .neg _ => negChars
  | .addsub _ _ _ => addsubChars

/-- The operands of a line. -/
def lineOperands : Line → List (List Char)
  | .core i => operandChars i
  | .add4Default a b => [nibbleChars a, nibbleChars b]
  | .neg x => [nibbleChars x]
  | .addsub a b op => [nibbleChars a, nibbleChars b, [bitChar op]]

theorem lineText_eq (l : Line) : lineText l = lineMnemonic l ++ ' ' :: commaSeparated (lineOperands l) := by
  cases l <;> rfl

theorem isWord_lineMnemonic (l : Line) : IsWord (lineMnemonic l) := by
  cases l with
  | core i => exact isWord_mnemonicChars i.fn
  | add4Default a b => exact isWord_mnemonicChars .add4
  | neg x => simp [IsWord, lineMnemonic, negChars]
  | addsub a b op => simp [IsWord, lineMnemonic, addsubChars]

theorem operandChars_ne_nil (i : Instr) : operandChars i ≠ [] := by cases i <;> exact List.cons_ne_nil _ _

theorem lineOperands_ne_nil (l : Line) : lineOperands l ≠ [] := by
  cases l with
  | core i => exact operandChars_ne_nil i
  | _ => exact List.cons_ne_nil _ _

theorem isWord_of_mem_operandChars (i : Instr) : ∀ w ∈ operandChars i, IsWord w := by
  cases i <;> simp [operandChars, isWord_bitChar, isWord_nibbleChars]

theorem isWord_of_mem_lineOperands (l : Line) : ∀ w ∈ lineOperands l, IsWord w := by
  cases l with
  | core i => exact isWord_of_mem_operandChars i
  | _ => simp [lineOperands, isWord_bitChar, isWord_nibbleChars]

/-- Every mnemonic leads to its own reader, which reads the operands back. -/
theorem lineOf_operandChars (i : Instr) : lineOf (mnemonicChars i.fn) (operandChars i) = some (.core i) := by
  cases i <;>
    simp [lineOf, Instr.fn, mnemonicChars, operandChars, lineG1, lineG2, lineG3, lineN1, lineN2, lineN2C, lineAdd4, lineI]

theorem lineOf_lineOperands (l : Line) : lineOf (lineMnemonic l) (lineOperands l) = some l := by
  cases l with
  | core i => exact lineOf_operandChars i
  | add4Default a b => simp [lineOf, lineMnemonic, lineOperands, mnemonicChars, lineAdd4, lineN2]
  | neg x => simp [lineOf, lineMnemonic, lineOperands, mnemonicChars, negChars, lineN1]
  | addsub a b op => simp [lineOf, lineMnemonic, lineOperands, mnemonicChars, negChars, addsubChars, lineN2C]

theorem readLine_lineText_append (l : Line) {tail : List Char} (htail : IsLineEnd tail) :
    readLine (lineText l ++ tail) = some l := by
  rw [lineText_eq, readLine_of_words (isWord_lineMnemonic l) (lineOperands_ne_nil l) (isWord_of_mem_lineOperands l) htail,
    lineOf_lineOperands]

theorem readLine_lineText (l : Line) : readLine (lineText l) = some l := by
  simpa using readLine_lineText_append l (.inl rfl)

/-- Settles O46: the tokens of a line's text are its mnemonic, its operands between commas, and perhaps an arrow. -/
theorem lineTextsReadBack : Obligations.LineTextsReadBack := fun l comment =>
  ⟨readLine_lineText l, readLine_lineText_append l (.inr ⟨comment, rfl⟩)⟩

/-- Settles O47: the expansions are the definition's; `step_line` runs them and `readLine_lineText` assembles them. -/
theorem linesRunTheirExpansion : Obligations.LinesRunTheirExpansion := by
  refine ⟨fun _ => rfl, fun _ _ => rfl, fun _ => rfl, fun a b op => ?_, fun l later old => step_line l () later old,
    fun l => ?_⟩
  · cases op <;> rfl
  · rw [assemble, readLine_lineText, Option.map_some]

end Sys2Proof.Machine
end

section
/-! The circuits of ADD4 and of the adder/subtractor (spec/41_adders.md R505, R506, spec/43_addsub.md R700, R706). -/

namespace Sys2Proof.Machine

/-- The four wires are among the first `n`. -/
abbrev NibbleWires.Below (x : NibbleWires) (n : Nat) : Prop := x.w0 < n ∧ x.w1 < n ∧ x.w2 < n ∧ x.w3 < n

theorem NibbleWires.below_mk {n w0 w1 w2 w3 : Nat} (h0 : w0 < n) (h1 : w1 < n) (h2 : w2 < n) (h3 : w3 < n) :
    NibbleWires.Below ⟨w0, w1, w2, w3⟩ n := ⟨h0, h1, h2, h3⟩

theorem NibbleWires.Below.mono {x : NibbleWires} {n m : Nat} (hx : x.Below n) (h : n ≤ m) : x.Below m := by
  obtain ⟨h0, h1, h2, h3⟩ := hx
  exact ⟨h0.trans_le h, h1.trans_le h, h2.trans_le h, h3.trans_le h⟩

theorem add4Result_below (n : Nat) : (add4Result n).Below (n + 52) :=
  NibbleWires.below_mk (by omega) (by omega) (by omega) (by omega)

theorem muxResult_below (n : Nat) : (muxResult n).Below (n + 13) :=
  NibbleWires.below_mk (by omega) (by omega) (by omega) (by omega)

/-- A Nibble on old wires is what it was. -/
theorem nibbleOn_old {ws more : Bits} {x : NibbleWires} (h : x.Below ws.length) :
    nibbleOn (ws ++ more) x = nibbleOn ws x := by
  obtain ⟨h0, h1, h2, h3⟩ := h
  simp only [nibbleOn, wireValue_old h0, wireValue_old h1, wireValue_old h2, wireValue_old h3]

/-- A Nibble on the first new wires. -/
theorem nibbleOn_new (ws : Bits) (x : Nibble) :
    nibbleOn (ws ++ x.bits) ⟨ws.length, ws.length + 1, ws.length + 2, ws.length + 3⟩ = x := by
  simp only [nibbleOn, wireValue_new, wireValue_end]
  rfl

theorem length_bits (x : Nibble) : x.bits.length = 4 := rfl

theorem length_append_of_eq {ws more : Bits} {n m : Nat} (hws : ws.length = n) (hmore : more.length = m) :
    (ws ++ more).length = n + m := by
  rw [List.length_append, hws, hmore]

/-- Settles O48: the counts are evaluated, and the circuit drives ADD4's outputs from its nine input wires. -/
theorem rippleAdderCircuitHasTheStatedGates : Obligations.RippleAdderCircuitHasTheStatedGates := by
  refine ⟨rfl, rfl, rfl, rfl, rfl, rfl, fun a b cin s => ?_⟩
  obtain ⟨more, heval, -, hr, hc⟩ := evalNetlist_add4Netlist (ws := a.bits ++ b.bits ++ [cin]) (n := 9) (c := 8)
    (a := ⟨0, 1, 2, 3⟩) (b := ⟨4, 5, 6, 7⟩) rfl (by decide) (by decide) (by decide)
  rw [heval, hr, hc]
  rfl

/-- The circuit of ONES drives four wires, the complement. -/
theorem evalNetlist_onesNetlist {ws : Bits} {x : NibbleWires} (h : x.Below ws.length) :
    evalNetlist (onesNetlist x) ws = ws ++ (onesComplement (nibbleOn ws x)).bits := by
  obtain ⟨-, h1, h2, h3⟩ := h
  simp only [onesNetlist, evalNetlist, gateValue, List.append_assoc, wireValue_old h1, wireValue_old h2,
    wireValue_old h3]
  rfl

/-- The circuit of TWOS drives 56 wires, four of them the two's complement. -/
theorem evalNetlist_twosNetlist {ws : Bits} {n lo hi : Nat} {x : NibbleWires} (hn : ws.length = n) (hx : x.Below n)
    (hlo : lo < n) (hhi : hi < n) (hlow : wireValue ws lo = false) (hhigh : wireValue ws hi = true) :
    ∃ more : Bits, evalNetlist (twosNetlist n x lo hi) ws = ws ++ more ∧ more.length = 56 ∧
      nibbleOn (ws ++ more) (add4Result (n + 4)) = twosComplement (nibbleOn ws x) := by
  subst hn
  have hones := evalNetlist_onesNetlist hx
  have hlen := length_append_of_eq (n := ws.length) rfl (length_bits (onesComplement (nibbleOn ws x)))
  have hone : nibbleOn ws ⟨lo, lo, lo, hi⟩ = nibbleOne := by
    simp only [nibbleOn, hlow, hhigh]
    rfl
  obtain ⟨more, hadd, hmore, hr, -⟩ := evalNetlist_add4Netlist hlen
    (NibbleWires.below_mk (w0 := ws.length) (w1 := ws.length + 1) (w2 := ws.length + 2) (w3 := ws.length + 3)
      (by omega) (by omega) (by omega) (by omega))
    (NibbleWires.below_mk (w0 := lo) (w1 := lo) (w2 := lo) (w3 := hi) (by omega) (by omega) (by omega) (by omega))
    (c := lo) (by omega)
  refine ⟨(onesComplement (nibbleOn ws x)).bits ++ more, ?_, length_append_of_eq (length_bits _) hmore, ?_⟩
  · rw [twosNetlist, evalNetlist_append, hones, hadd, List.append_assoc]
  · rw [← List.append_assoc, hr, nibbleOn_new, nibbleOn_old (NibbleWires.below_mk hlo hlo hlo hhi), hone,
      wireValue_old hlo, hlow]
    rfl

/-- The mux is a choice between b and its two's complement. -/
theorem selectOperand_eq_ite (op : Bit) (b : Nibble) : selectOperand op b = if op = true then twosComplement b else b := by
  cases op <;> rfl

/-- The circuit of the adder/subtractor: TWOS's, the mux's and ADD4's, each reading what those before it drove. -/
theorem evalNetlist_addSubNetlist {ws : Bits} {n op lo hi : Nat} {a b : NibbleWires} (hn : ws.length = n)
    (ha : a.Below n) (hb : b.Below n) (hop : op < n) (hlo : lo < n) (hhi : hi < n)
    (hlow : wireValue ws lo = false) (hhigh : wireValue ws hi = true) :
    nibbleOn (evalNetlist (addSubNetlist n a b op lo hi) ws) (add4Result (n + 69)) =
        (addSubtract (nibbleOn ws a) (nibbleOn ws b) (wireValue ws op)).1 ∧
      wireValue (evalNetlist (addSubNetlist n a b op lo hi) ws) (n + 120) =
        (addSubtract (nibbleOn ws a) (nibbleOn ws b) (wireValue ws op)).2 := by
  subst hn
  obtain ⟨mt, htwos, hmt, ht⟩ := evalNetlist_twosNetlist rfl hb hlo hhi hlow hhigh
  have hlen := length_append_of_eq (n := ws.length) rfl hmt
  obtain ⟨mm, hmux, hmm, hm⟩ := evalNetlist_muxNetlist hlen (op := op) (by omega)
    (hb.mono (Nat.le_add_right _ _)) (add4Result_below (ws.length + 4))
  have hlen' := length_append_of_eq hlen hmm
  obtain ⟨more, hadd, -, hr, hc⟩ := evalNetlist_add4Netlist hlen' (ha.mono (by omega))
    (muxResult_below (ws.length + 56)) (c := lo) (by omega)
  have hnet : evalNetlist (addSubNetlist ws.length a b op lo hi) ws = ws ++ mt ++ mm ++ more := by
    rw [addSubNetlist, evalNetlist_append, evalNetlist_append, htwos, hmux, hadd]
  have hleft : nibbleOn (ws ++ mt ++ mm) a = nibbleOn ws a := by rw [List.append_assoc, nibbleOn_old ha]
  have hright : nibbleOn (ws ++ mt ++ mm) (muxResult (ws.length + 56)) =
      selectOperand (wireValue ws op) (nibbleOn ws b) := by
    rw [hm, wireValue_old hop, ht, nibbleOn_old hb, selectOperand_eq_ite]
  have hcarry : wireValue (ws ++ mt ++ mm) lo = tiedCarry := by rw [List.append_assoc, wireValue_old hlo, hlow, tiedCarry]
  rw [hleft, hright, hcarry] at hr hc
  rw [hnet]
  exact ⟨hr, hc⟩

theorem exec_addsub (a b : Nibble) (op : Bit) (s : State) :
    exec (if op = true then .sub a b else .add a b) s =
      deliver (.addSub (addSubtract a b op).1 (addSubtract a b op).2) s := by
  cases op <;> rfl

/-- Settles O49: the circuit on the eleven input wires, of which 9 and 10 hold the constants. -/
theorem adderSubtractorCircuitAgreesWithIt : Obligations.AdderSubtractorCircuitAgreesWithIt := by
  refine ⟨rfl, fun a b op s => ⟨_, rfl, ?_⟩⟩
  obtain ⟨hr, hc⟩ := evalNetlist_addSubNetlist (ws := a.bits ++ b.bits ++ [op, false, true]) (n := 11)
    (a := ⟨0, 1, 2, 3⟩) (b := ⟨4, 5, 6, 7⟩) (op := 8) (lo := 9) (hi := 10) rfl (by decide) (by decide) (by decide)
    (by decide) (by decide) rfl rfl
  rw [hr, hc, exec_addsub, deliver_eq_next]
  rfl

end Sys2Proof.Machine
end
